-- ==== Sys2Proof/Word.lean ====
section
/-! DEFINITION. The words of the machine (00_scope.md R9): everything the block computes with is unsigned. -/

namespace Sys2Proof

/-- A `u8` (R9): a message byte, a buffer byte, the operand field of a command. -/
abbrev Byte := BitVec 8

/-- A `u32` (R9): a command word, a response, a word of H, V, W or K. Its `+` is addition modulo 2^32 (R10, R117). -/
abbrev Word := BitVec 32

end Sys2Proof
end

