-- ==== Sys2Proof/Syntax.lean ====
section
/-! DEFINITION. The commands of the block: one constructor per row of the opcode map (30_encoding.md R68). -/

namespace Sys2Proof

/-- A command (R68). An operand is the whole 8-bit field `opd = w[7:0]` (R65, R66); which of its values are legal is
`Instr.wf`. -/
inductive Instr where
  | nop
  | init
  | absorb (b : Byte)
  | final
  | rdstat
  | rdword (k : Byte)
  | rdbyte (i : Byte)
  | rdhex (i : Byte)
deriving DecidableEq, Repr

end Sys2Proof
end

