-- ==== Sys2Proof/WellFormed.lean ====
section
/-! DEFINITION. Which commands are well formed: the operand ranges of 30_encoding.md R66 and R67. -/

namespace Sys2Proof

/-- A command whose operand lies in the range of its opcode (R66): RDWORD has `opd[7:3] = 0`, RDBYTE `opd[7:5] = 0`,
RDHEX `opd[7:6] = 0`; every byte may be absorbed. -/
def Instr.wf : Instr → Bool
  | .nop => true
  | .init => true
  | .absorb _ => true
  | .final => true
  | .rdstat => true
  | .rdword k => decide (k.toNat < 8)
  | .rdbyte i => decide (i.toNat < 32)
  | .rdhex i => decide (i.toNat < 64)

end Sys2Proof
end

