-- ==== Sys2Proof/Decode.lean ====
section
/-! DEFINITION. Decoding a command word, total on every word and refusing by name, and the encoder
(30_encoding.md R64 to R70). -/

namespace Sys2Proof

/-- `op = w[31:28]` (R65). -/
def opOf (w : Word) : BitVec 4 := w.extractLsb' 28 4

/-- `rsv = w[27:8]` (R65). -/
def rsvOf (w : Word) : BitVec 20 := w.extractLsb' 8 20

/-- `opd = w[7:0]` (R65). -/
def opdOf (w : Word) : Byte := w.extractLsb' 0 8

/-- Why a word is no command (R70). The block does not tell the three apart: each raises E_ILL (R146). -/
inductive Reject where
  /-- opcodes 0x8 to 0xF -/
  | reservedOpcode
  /-- a nonzero field `w[27:8]` -/
  | reservedField
  /-- an operand outside the range of its opcode (R66) -/
  | operandRange
deriving DecidableEq, Repr

/-- The command an opcode and an operand name (R68), whatever the operand's range; none for a reserved opcode. -/
def commandOf (op : BitVec 4) (opd : Byte) : Option Instr :=
  match op.toNat with
  | 0 => some .nop
  | 1 => some .init
  | 2 => some (.absorb opd)
  | 3 => some .final
  | 4 => some .rdstat
  | 5 => some (.rdword opd)
  | 6 => some (.rdbyte opd)
  | 7 => some (.rdhex opd)
  | _ => none

/-- Whether a command takes an operand at all (R66): the others require `opd = 0`. -/
def Instr.takesOperand : Instr → Bool
  | .nop => false
  | .init => false
  | .absorb _ => true
  | .final => false
  | .rdstat => false
  | .rdword _ => true
  | .rdbyte _ => true
  | .rdhex _ => true

/-- The decoder: the command of a legal word, or the reason the word is illegal (R69, R70). -/
def decode (w : Word) : Except Reject Instr :=
  match commandOf (opOf w) (opdOf w) with
  | none => .error .reservedOpcode
  | some i =>
    if rsvOf w ≠ 0 then .error .reservedField
    else if i.wf && (i.takesOperand || opdOf w == 0) then .ok i
    else .error .operandRange

/-- `legal(w)` as R69 writes it, by match and mask. -/
def legal (w : Word) : Bool :=
  w == 0x00000000 || w == 0x10000000 || (w &&& 0xFFFFFF00) == 0x20000000
    || w == 0x30000000 || w == 0x40000000 || (w &&& 0xFFFFFFF8) == 0x50000000
    || (w &&& 0xFFFFFFE0) == 0x60000000 || (w &&& 0xFFFFFFC0) == 0x70000000

/-- One row of the opcode map: a word `w` is the command when `w and mask = match` (R68). -/
structure OpcodeRow where
  mnemonic : String
  pattern : Word
  mask : Word
deriving DecidableEq, Repr

/-- The opcode map (R68), row by row. -/
def opcodeMap : List OpcodeRow :=
  [ ⟨"NOP",    0x00000000, 0xFFFFFFFF⟩,
    ⟨"INIT",   0x10000000, 0xFFFFFFFF⟩,
    ⟨"ABSORB", 0x20000000, 0xFFFFFF00⟩,
    ⟨"FINAL",  0x30000000, 0xFFFFFFFF⟩,
    ⟨"RDSTAT", 0x40000000, 0xFFFFFFFF⟩,
    ⟨"RDWORD", 0x50000000, 0xFFFFFFF8⟩,
    ⟨"RDBYTE", 0x60000000, 0xFFFFFFE0⟩,
    ⟨"RDHEX",  0x70000000, 0xFFFFFFC0⟩ ]

/-- Whether a word matches a row (R68). -/
def OpcodeRow.matches (r : OpcodeRow) (w : Word) : Bool := (w &&& r.mask) == r.pattern

/-- The opcode of a command (R68). -/
def Instr.opcode : Instr → BitVec 4
  | .nop => 0
  | .init => 1
  | .absorb _ => 2
  | .final => 3
  | .rdstat => 4
  | .rdword _ => 5
  | .rdbyte _ => 6
  | .rdhex _ => 7

/-- The operand field of a command (R66): 0 where it takes none. -/
def Instr.operand : Instr → Byte
  | .nop => 0
  | .init => 0
  | .absorb b => b
  | .final => 0
  | .rdstat => 0
  | .rdword k => k
  | .rdbyte i => i
  | .rdhex i => i

/-- The command word with the given fields: `op ‖ rsv ‖ opd` (R64). -/
def packFields (op : BitVec 4) (rsv : BitVec 20) (opd : Byte) : Word := (op ++ rsv ++ opd).cast (by decide)

/-- The word of a command (R64, R68): the reserved field is 0. -/
def encode (i : Instr) : Word := packFields i.opcode 0 i.operand

/-- The mnemonic of a command, as the opcode map spells it (R68). -/
def Instr.mnemonic : Instr → String
  | .nop => "NOP"
  | .init => "INIT"
  | .absorb _ => "ABSORB"
  | .final => "FINAL"
  | .rdstat => "RDSTAT"
  | .rdword _ => "RDWORD"
  | .rdbyte _ => "RDBYTE"
  | .rdhex _ => "RDHEX"

/-- The word the opcode table numbers by `w`: its low `nbits` bits, the bits above them 0. Every command is one
32-bit word (R64), so bit 0 of the table is bit 0 of the word. -/
def tableWord (nbits w : Nat) : Word := BitVec.ofNat 32 (w % 2 ^ nbits)

/-- The command the decoder reads from a table word; none where it refuses. -/
def decodeTableWord (nbits w : Nat) : Option Instr :=
  match decode (tableWord nbits w) with
  | .ok i => some i
  | .error _ => none

end Sys2Proof
end

