-- ==== Sys2Proof/Config.lean ====
section
/-! DEFINITION. What is fixed for the machine, and the values the spec leaves open (00_scope.md R7, R8). An `opaque`
constant has no body, so no proof can see its value: a claim about it holds whatever it is. -/

namespace Sys2Proof

/-- `MAXLEN = 2^61 − 1`, the largest byte count whose bit length fits the 64-bit length field (R7, R32). -/
def Config.maxLen : Nat := 2 ^ 61 - 1

/-- FREE VALUE (log 3): where both agents are enabled and `State.sched` says nothing, whether the HOST moves before
the ENGINE. R13: "Either agent may step whenever it is enabled". Applied to the counter `State.tick`. -/
opaque Config.hostFirst : Nat → Bool

/-- `N_INSTANCES` (R8, OPEN): how many independent cores the platform has (log 12). -/
opaque Config.nInstances : Nat

/-- `RSP_LATENCY` (R8, OPEN): cycles from the acceptance of a command to its response (log 11). -/
opaque Config.rspLatency : Nat

/-- `CYCLES_PER_STEP` (R8, OPEN): cycles per ENGINE micro-step (log 11). -/
opaque Config.cyclesPerStep : Nat

end Sys2Proof
end

