-- ==== Sys2Proof/Machine/WordFns.lean ====
section
/-! DEFINITION. Word functions (00_scope.md R10, R11), the logical functions of the compression (41_compression.md
R100 to R105), and tables built from a function of the index. -/

namespace Sys2Proof.Machine

/-- The array whose entry `i` is `f i`. -/
def tabulate {α : Type} (n : Nat) (f : Fin n → α) : Vector α n := ⟨(List.ofFn f).toArray, by simp⟩

/-- Circular right rotation by `n` places, `0 < n < 32` (R10). -/
def rotr (x : Word) (n : Nat) : Word := (x >>> n) ||| (x <<< (32 - n))

/-- Logical right shift with zero fill (R10). -/
def shr (x : Word) (n : Nat) : Word := x >>> n

/-- `BE32`: the first byte in bits 31:24 (R11). -/
def be32 (b0 b1 b2 b3 : Byte) : Word := (b0 ++ b1 ++ b2 ++ b3).cast (by decide)

/-- Byte `j` of `BE64(v)`, the most significant byte first (R11). -/
def be64Byte (v : BitVec 64) (j : Fin 8) : Byte := v.extractLsb' (56 - 8 * j.val) 8

/-- `BE64(v)` (R11). -/
def be64 (v : BitVec 64) : Vector Byte 8 := tabulate 8 (be64Byte v)

/-- `sigma0` (R100). -/
def sigma0 (x : Word) : Word := rotr x 7 ^^^ rotr x 18 ^^^ shr x 3

/-- `sigma1` (R101). -/
def sigma1 (x : Word) : Word := rotr x 17 ^^^ rotr x 19 ^^^ shr x 10

/-- `Sigma0` (R102). -/
def bigSigma0 (x : Word) : Word := rotr x 2 ^^^ rotr x 13 ^^^ rotr x 22

/-- `Sigma1` (R103). -/
def bigSigma1 (x : Word) : Word := rotr x 6 ^^^ rotr x 11 ^^^ rotr x 25

/-- `Ch` (R104): each bit of `e` chooses `f` where it is 1 and `g` where it is 0. -/
def ch (e f g : Word) : Word := (e &&& f) ^^^ (~~~e &&& g)

/-- `Maj` (R105): the majority of the three, bit by bit. -/
def maj (a b c : Word) : Word := (a &&& b) ^^^ (a &&& c) ^^^ (b &&& c)

/-- One round (R108): the working registers `(a, .., h)`, a round constant and a schedule word to the registers after
it. Every right-hand side reads the registers from before the round. -/
def roundFn (v : Vector Word 8) (k w : Word) : Vector Word 8 :=
  let t1 := v[7] + bigSigma1 v[4] + ch v[4] v[5] v[6] + k + w
  let t2 := bigSigma0 v[0] + maj v[0] v[1] v[2]
  #v[t1 + t2, v[0], v[1], v[2], v[3] + t1, v[4], v[5], v[6]]

/-- The recurrence of the message schedule (R107, R111): `W[t]` for `16 ≤ t ≤ 63` from four earlier entries
(90_conflicts.md C6). -/
def scheduleWord (w : Vector Word 64) (t : Nat) (_lo : 16 ≤ t) (_hi : t < 64) : Word :=
  w[t - 16] + sigma0 w[t - 15] + w[t - 7] + sigma1 w[t - 2]

end Sys2Proof.Machine
end

