-- ==== Sys2Proof/Machine/State.lean ====
section
/-! DEFINITION. The state of one core (10_state.md R20), with the words of the HOST around it, and the state after
reset (R40). Plain data. -/

namespace Sys2Proof.Machine

/-- `phase` (10_state.md R25). -/
inductive Phase where
  /-- the core accepts message bytes and FINAL -/
  | absorb
  /-- the message has been padded and every block compressed; `H` holds the digest -/
  | done
  /-- a length overflow has occurred; the message is abandoned -/
  | error
deriving DecidableEq, Repr

/-- `estep` (10_state.md R27): the next ENGINE micro-step. -/
inductive EStep where
  | idle
  | load
  | round
  | accum
deriving DecidableEq, Repr

/-- `fin` (10_state.md R29): where a FINAL stands. -/
inductive FinState where
  /-- no FINAL in progress -/
  | none
  /-- the block being compressed is the first of two padding blocks; a length-only block follows -/
  | pad2
  /-- the block being compressed is the last block of the message -/
  | last
deriving DecidableEq, Repr

/-- The errors (60_exceptions.md R145). -/
inductive Err where
  /-- the message would exceed 2^61 − 1 bytes -/
  | ovf
  /-- an illegal word -/
  | ill
  /-- ABSORB or FINAL outside phase ABSORB -/
  | seq
deriving DecidableEq, Repr

/-- What the world outside lets happen at one step (00_scope.md R13; log 3, log 4). -/
inductive Move where
  /-- the HOST moves if it is enabled, else the ENGINE if it is -/
  | host
  /-- the ENGINE moves if it is enabled, else the HOST if it is -/
  | engine
  /-- RESET is taken; `again` is whether the HOST presents again the word that was waiting (70_reset_and_hazards.md
  R160) -/
  | reset (again : Bool)
deriving DecidableEq, Repr

/-- The machine never stops with a fault: an error is a sticky flag and the machine goes on (60_exceptions.md R150),
and the ENGINE has no error condition (41_compression.md R118). So there is no constructor. -/
inductive Fault where
deriving DecidableEq, Repr

/-- Reasons for which a step is refused. -/
inductive Refusal where
  /-- Raised by `exec` for an instruction that has no meaning yet (safe: the machine stops). No arm raises it: every
  command has its meaning. -/
  | notModelled (mnemonic : String)
deriving DecidableEq, Repr

/-- The state of one core: the elements of 10_state.md R20, each under the spec's own name, then the words and moves
of the world outside. -/
structure State where
  /-- `H[0..8)`: hash state (R21) -/
  h : Vector Word 8
  /-- `V[0..8)`: working registers a..h (R23) -/
  v : Vector Word 8
  /-- `W[0..64)`: message schedule (R24) -/
  w : Vector Word 64
  /-- `K[0..64)`: round constants, read-only (R36; log 6) -/
  k : Vector Word 64
  /-- `buf[0..64)`: block buffer (R31) -/
  buf : Vector Byte 64
  /-- `bufcnt`: fill count, 0..64 (R31) -/
  bufcnt : Nat
  /-- `len`: message length in bytes, 0..2^61 − 1 (R32) -/
  len : Nat
  /-- `phase` (R25) -/
  phase : Phase
  /-- `busy`: the ENGINE has a block to compress (R26) -/
  busy : Bool
  /-- `estep`: the next ENGINE micro-step (R27) -/
  estep : EStep
  /-- `t`: round counter, 0..64 (R28) -/
  t : Nat
  /-- `fin`: where a FINAL stands (R29) -/
  fin : FinState
  /-- `e_ovf` (R34) -/
  eOvf : Bool
  /-- `e_ill` (R34) -/
  eIll : Bool
  /-- `e_seq` (R34) -/
  eSeq : Bool
  /-- the MODEL's own: the command words the HOST has still to present, the presented one first (log 1) -/
  cmds : List Word
  /-- the MODEL's own: the responses given so far, oldest first (log 2) -/
  rsps : List Word
  /-- the MODEL's own: what the world outside lets happen at the coming steps (log 3) -/
  sched : List Move
  /-- the MODEL's own: the counter the free choice `Config.hostFirst` is applied to (log 3) -/
  tick : Nat
deriving DecidableEq, Repr

/-- The state after RESET (10_state.md R40, 70_reset_and_hazards.md R160), with no command presented, no response
given and no move chosen (log 1, 2, 3: DESIGN CHOICE). -/
def State.reset : State where
  h := iv
  v := Vector.replicate 8 0
  w := Vector.replicate 64 0
  k := roundConstants
  buf := Vector.replicate 64 0
  bufcnt := 0
  len := 0
  phase := .absorb
  busy := false
  estep := .idle
  t := 0
  fin := .none
  eOvf := false
  eIll := false
  eSeq := false
  cmds := []
  rsps := []
  sched := []
  tick := 0

end Sys2Proof.Machine
end

