-- ==== Sys2Proof/Machine/Flags.lean ====
section
/-! DEFINITION. STATUS (10_state.md R33) and the level outputs (R37): pure functions of the state. -/

namespace Sys2Proof.Machine

/-- The code of `phase` in STATUS.PHASE (R25). -/
def phaseCode : Phase → BitVec 2
  | .absorb => 0
  | .done => 1
  | .error => 2

/-- A flag as a word, in bit 0. -/
def flagWord (b : Bool) : Word := (BitVec.ofBool b).setWidth 32

/-- `STATUS` (R33): BUSY in bit 0, PHASE in 2:1, E_OVF, E_ILL, E_SEQ in 4, 5, 6, LENLO in 13:8, all other bits 0. -/
def status (s : State) : Word :=
  (BitVec.ofNat 32 (s.len % 64) <<< 8) ||| (flagWord s.eSeq <<< 6) ||| (flagWord s.eIll <<< 5)
    ||| (flagWord s.eOvf <<< 4) ||| ((phaseCode s.phase).setWidth 32 <<< 1) ||| flagWord s.busy

/-- The sticky flag of an error (R34). -/
def errFlag : Err → State → Bool
  | .ovf, s => s.eOvf
  | .ill, s => s.eIll
  | .seq, s => s.eSeq

/-- The STATUS bit that records an error (60_exceptions.md R145). -/
def errBit : Err → Nat
  | .ovf => 4
  | .ill => 5
  | .seq => 6

/-- The code of an error, its STATUS bit position minus 3 (60_exceptions.md R145): a name, recorded nowhere else. -/
def errCode (e : Err) : Nat := errBit e - 3

/-- `busy_o` (R37). -/
def busyO (s : State) : Bool := s.busy

/-- `done_o` (R37). -/
def doneO (s : State) : Bool := decide (s.phase = .done)

/-- `err_o` (R37). -/
def errO (s : State) : Bool := decide (s.phase = .error) || s.eIll || s.eSeq

end Sys2Proof.Machine
end

