-- ==== Sys2Proof/Machine/Ops.lean ====
section
/-! DEFINITION. The shared operations over the state: responses, the error action and what leaves it, acceptance, the
block buffer, starting the ENGINE. -/

namespace Sys2Proof.Machine

/-- `rsp <- r` (00_scope.md R12, 30_encoding.md R72): the command's one response, after all earlier ones. -/
def respond (r : Word) (s : State) : State := { s with rsps := s.rsps ++ [r] }

/-- What `raise E_x` sets (60_exceptions.md R150): the flag of the error, and for E_OVF the phase. -/
def setError : Err → State → State
  | .ovf, s => { s with eOvf := true, phase := .error }
  | .ill, s => { s with eIll := true }
  | .seq, s => { s with eSeq := true }

/-- THE ERROR ACTION `raise E_x` (60_exceptions.md R150), in the place of a trap: set the flag (and for E_OVF the
phase), answer 0, change nothing else, end the command. -/
def raise (e : Err) (s : State) : State := respond 0 (setError e s)

/-- What leaves an error state and starts a new message (60_exceptions.md R151): every element of the block at the
value of 10_state.md R40. `K` is constant, and the world outside the block is not touched. -/
def startMessage (s : State) : State :=
  { s with
    h := iv
    v := Vector.replicate 8 0
    w := Vector.replicate 64 0
    buf := Vector.replicate 64 0
    bufcnt := 0
    len := 0
    phase := .absorb
    busy := false
    estep := .idle
    t := 0
    fin := .none
    eOvf := false
    eIll := false
    eSeq := false }

/-- RESET (70_reset_and_hazards.md R160): no response; a waiting command is not performed, and `again` says whether
the HOST presents it again (log 4). -/
def resetCore (again : Bool) (s : State) : State :=
  { startMessage s with cmds := if again then s.cmds else s.cmds.tail }

/-- `accepted(w)` (70_reset_and_hazards.md R166): while the ENGINE runs, only a legal NOP or a legal RDSTAT. -/
def accepted (s : State) (w : Word) : Bool := !s.busy || w == 0x00000000 || w == 0x40000000

/-- A command that is accepted only when `busy = 0` (R166): while `busy = 1` it is held and nothing happens (log 8). -/
def whenIdle (s : State) (k : State) : Host.Outcome State Fault Refusal :=
  if s.busy then .next s else .next k

/-- `start_engine()` (41_compression.md R109). -/
def startEngine (s : State) : State := { s with busy := true, estep := .load }

/-- Byte `j` of the length field `BE64(8 · len)` (20_memory.md R47). At `len` above MAXLEN, which no reachable state has
(10_state.md R32), it is a byte of the low 64 bits (log 9). -/
def lengthByte (len : Nat) (j : Fin 8) : Byte := be64Byte (BitVec.ofNat 64 (8 * len)) j

/-- One message byte at `buf[bufcnt]` (40_preprocessor.md R85), with the two counters. A write past the buffer (no
reachable state makes one, 10_state.md R38) is dropped (log 9). -/
def appendByte (b : Byte) (s : State) : State :=
  { s with buf := s.buf.setIfInBounds s.bufcnt b, bufcnt := s.bufcnt + 1, len := s.len + 1 }

/-- Whether the length field fits behind the `0x80` byte in the current block (40_preprocessor.md R86). -/
def lengthFits (s : State) : Bool := decide (s.bufcnt + 1 ≤ 56)

/-- The buffer FINAL leaves (40_preprocessor.md R86): the message bytes, `0x80`, zero bytes, and in the last eight
places the length field if it fits. -/
def paddedBuf (s : State) : Vector Byte 64 :=
  tabulate 64 fun j =>
    if j.val < s.bufcnt then s.buf[j]
    else if j.val = s.bufcnt then 0x80
    else if h : lengthFits s = true ∧ 56 ≤ j.val then lengthByte s.len ⟨j.val - 56, by omega⟩
    else 0x00

/-- The buffer of the length-only block (40_preprocessor.md R87). -/
def lengthOnlyBuf (len : Nat) : Vector Byte 64 :=
  tabulate 64 fun j => if h : 56 ≤ j.val then lengthByte len ⟨j.val - 56, by omega⟩ else 0x00

/-- Block word `j` of a 64-byte block (20_memory.md R46): the earliest of its four bytes in bits 31:24. -/
def blockWord (buf : Vector Byte 64) (j : Fin 16) : Word :=
  be32 buf[4 * j.val] buf[4 * j.val + 1] buf[4 * j.val + 2] buf[4 * j.val + 3]

/-- The 16 words of a block (20_memory.md R46). -/
def blockWords (buf : Vector Byte 64) : Vector Word 16 := tabulate 16 (blockWord buf)

end Sys2Proof.Machine
end

