-- ==== Sys2Proof/Machine/Control.lean ====
section
/-! DEFINITION. NOP, INIT and RDSTAT (42_control_readout.md R130 to R132). -/

namespace Sys2Proof.Machine

/-- NOP (R130): accepted in every state; response 0 and nothing else. -/
def execNop (s : State) : Host.Outcome State Fault Refusal := .next (respond 0 s)

/-- INIT (R131): every element of the block to its reset value, all error flags cleared; response 0. -/
def execInit (s : State) : Host.Outcome State Fault Refusal := whenIdle s (respond 0 (startMessage s))

/-- RDSTAT (R132): accepted in every state; the response is STATUS. -/
def execRdstat (s : State) : Host.Outcome State Fault Refusal := .next (respond (status s) s)

end Sys2Proof.Machine
end

