-- ==== Sys2Proof/Machine/Preprocessor.lean ====
section
/-! DEFINITION. The Message Preprocessor's commands, ABSORB and FINAL (40_preprocessor.md R85, R86). -/

namespace Sys2Proof.Machine

/-- The byte ABSORB takes in (R85), once its two tests are passed: the byte that fills the block starts the ENGINE. -/
def absorbByte (b : Byte) (s : State) : State :=
  let s := respond 0 (appendByte b s)
  if s.bufcnt = 64 then startEngine { s with fin := .none } else s

/-- ABSORB (R85): the phase test comes before the length test (60_exceptions.md R149). -/
def execAbsorb (b : Byte) (s : State) : Host.Outcome State Fault Refusal :=
  whenIdle s <|
    if s.phase ≠ .absorb then raise .seq s
    else if s.len = Config.maxLen then raise .ovf s
    else absorbByte b s

/-- The padding FINAL writes, and the start of the ENGINE (R86). -/
def padAndStart (s : State) : State :=
  startEngine <| respond 0
    { s with buf := paddedBuf s, bufcnt := 64, fin := if lengthFits s then .last else .pad2 }

/-- FINAL (R86). -/
def execFinal (s : State) : Host.Outcome State Fault Refusal :=
  whenIdle s <| if s.phase ≠ .absorb then raise .seq s else padAndStart s

end Sys2Proof.Machine
end

