-- ==== Sys2Proof/Machine/Operands.lean ====
section
/-! DEFINITION. The operand forms of the read commands, and what they select (30_encoding.md R66, 20_memory.md R48,
42_control_readout.md R136). -/

namespace Sys2Proof.Machine

/-- The operand field as an index below `n` (R66, R67); none where it is out of range. -/
def operandIndex (n : Nat) (opd : Byte) : Option (Fin n) :=
  if h : opd.toNat < n then some ⟨opd.toNat, h⟩ else none

/-- Digest byte `i` (R48): `H[i div 4][31 − 8·(i mod 4) : 24 − 8·(i mod 4)]`. -/
def digestByte (h : Vector Word 8) (i : Fin 32) : Byte :=
  h[i.val / 4].extractLsb' (24 - 8 * (i.val % 4)) 8

/-- Digest nibble `i` (R48, R135): `H[i div 8][31 − 4·(i mod 8) : 28 − 4·(i mod 8)]`. -/
def digestNibble (h : Vector Word 8) (i : Fin 64) : BitVec 4 :=
  h[i.val / 8].extractLsb' (28 - 4 * (i.val % 8)) 4

/-- `hexchar(n)` (R136): the character code of the lowercase hexadecimal digit. -/
def hexchar (n : BitVec 4) : Byte :=
  if n.toNat ≤ 9 then 0x30 + n.setWidth 8 else 0x61 + (n.setWidth 8 - 10)

/-- Digest character `i` (R48, R135). -/
def digestChar (h : Vector Word 8) (i : Fin 64) : Byte := hexchar (digestNibble h i)

end Sys2Proof.Machine
end

