-- ==== Sys2Proof/Machine/Readout.lean ====
section
/-! DEFINITION. The digest read-out: RDWORD, RDBYTE, RDHEX (42_control_readout.md R133 to R135). The value read is the
digest exactly in phase DONE, and a chaining value in the other phases (R137). An operand out of
range is an illegal command (60_exceptions.md R146); the decoder has refused its word before (log 7). -/

namespace Sys2Proof.Machine

/-- A read of an index below `n`: the response is what `read` gives; an index out of range raises E_ILL. -/
def readIndexed (n : Nat) (opd : Byte) (read : Fin n → Word) (s : State) : State :=
  match operandIndex n opd with
  | some i => respond (read i) s
  | none => raise .ill s

/-- RDWORD k (R133): hash-state word `k`, in every phase. -/
def execRdword (k : Byte) (s : State) : Host.Outcome State Fault Refusal :=
  whenIdle s (readIndexed 8 k (fun i => s.h[i]) s)

/-- RDBYTE i (R134): digest byte `i`, zero-extended. -/
def execRdbyte (i : Byte) (s : State) : Host.Outcome State Fault Refusal :=
  whenIdle s (readIndexed 32 i (fun j => (digestByte s.h j).setWidth 32) s)

/-- RDHEX i (R135): the character code of digest character `i`, zero-extended. -/
def execRdhex (i : Byte) (s : State) : Host.Outcome State Fault Refusal :=
  whenIdle s (readIndexed 64 i (fun j => (digestChar s.h j).setWidth 32) s)

end Sys2Proof.Machine
end

