-- ==== Sys2Proof/Machine/Dispatch.lean ====
section
/-! DEFINITION. One arm per command (30_encoding.md R68): the HOST's step for a decoded command. -/

namespace Sys2Proof.Machine

def exec (i : Instr) (s : State) : Host.Outcome State Fault Refusal :=
  match i with
  | .nop => Sys2Proof.Machine.execNop s
  | .init => Sys2Proof.Machine.execInit s
  | .absorb b => Sys2Proof.Machine.execAbsorb b s
  | .final => Sys2Proof.Machine.execFinal s
  | .rdstat => Sys2Proof.Machine.execRdstat s
  | .rdword k => Sys2Proof.Machine.execRdword k s
  | .rdbyte j => Sys2Proof.Machine.execRdbyte j s
  | .rdhex j => Sys2Proof.Machine.execRdhex j s

end Sys2Proof.Machine
end

