-- ==== Sys2Proof/Machine/Engine.lean ====
section
/-! DEFINITION. The ENGINE's micro-steps LOAD, ROUND and ACCUM (41_compression.md R110 to R113). The ENGINE is not
driven by commands: it steps by itself while `busy = 1`. -/

namespace Sys2Proof.Machine

/-- The schedule after LOAD (R110): the first 16 entries are the block's words, the others are kept. -/
def loadedSchedule (buf : Vector Byte 64) (w : Vector Word 64) : Vector Word 64 :=
  tabulate 64 fun j => if h : j.val < 16 then blockWord buf ⟨j.val, h⟩ else w[j]

/-- LOAD (R110): the block into `W[0..16)`, a copy of `H` into `V` (not an alias, R116). -/
def loadStep (s : State) : State :=
  { s with w := loadedSchedule s.buf s.w, v := s.h, bufcnt := 0, t := 0, estep := .round }

/-- The schedule that round `t` uses (R111): `W[t]` is computed just before, for `t ≥ 16`. -/
def scheduleFor (w : Vector Word 64) (t : Fin 64) : Vector Word 64 :=
  if h : 16 ≤ t.val then w.set t.val (scheduleWord w t.val h t.isLt) else w

/-- ROUND (R111) with index `t`. -/
def roundStep (t : Fin 64) (s : State) : State :=
  let w := scheduleFor s.w t
  { s with
    w := w
    v := roundFn s.v s.k[t] w[t]
    t := t.val + 1
    estep := if t.val + 1 = 64 then .accum else .round }

/-- What `H` becomes at ACCUM (R112): all eight words in one step, modulo 2^32. -/
def accumulate (h v : Vector Word 8) : Vector Word 8 := tabulate 8 fun i => h[i] + v[i]

/-- ACCUM, first part (R112). -/
def accumHash (s : State) : State := { s with h := accumulate s.h s.v, t := 0 }

/-- ACCUM, second part (R113): what follows the block. -/
def afterBlock (s : State) : State :=
  match s.fin with
  | .none => { s with busy := false, estep := .idle }
  | .pad2 => { s with buf := lengthOnlyBuf s.len, bufcnt := 64, fin := .last, estep := .load }
  | .last => { s with fin := .none, phase := .done, busy := false, estep := .idle }

/-- ACCUM (R112, R113), one step. -/
def accumStep (s : State) : State := afterBlock (accumHash s)

/-- Whether the ENGINE has a micro-step (R110 to R113, R118): it is busy, and the micro-step named by `estep` is
enabled. -/
def engineEnabled (s : State) : Bool :=
  s.busy &&
    match s.estep with
    | .idle => false
    | .load => true
    | .round => decide (s.t < 64)
    | .accum => true

/-- The micro-step `estep` names; the state as it is where there is none. -/
def microStep (s : State) : State :=
  match s.estep with
  | .idle => s
  | .load => loadStep s
  | .round => if h : s.t < 64 then roundStep ⟨s.t, h⟩ s else s
  | .accum => accumStep s

/-- One ENGINE step: a micro-step where one is enabled. -/
def engineStep (s : State) : State := if engineEnabled s then microStep s else s

/-- `n` ENGINE steps, with the HOST standing still. -/
def engineRun : Nat → State → State
  | 0, s => s
  | n + 1, s => engineRun n (engineStep s)

end Sys2Proof.Machine
end

