-- ==== Sys2Proof/Machine/Agents.lean ====
section
/-! DEFINITION. The two agents and RESET (00_scope.md R13; 70_reset_and_hazards.md R160, R166), and which of them
moves. -/

namespace Sys2Proof.Machine

/-- Performing an accepted word (30_encoding.md R70, R72): the command it is, or E_ILL. -/
def perform (w : Word) (s : State) : Host.Outcome State Fault Refusal :=
  match decode w with
  | .ok i => exec i s
  | .error _ => .next (raise .ill s)

/-- Whether the HOST has a step (R13, R166): it presents a word and the word is accepted. -/
def hostEnabled (s : State) : Bool :=
  match s.cmds with
  | [] => false
  | w :: _ => accepted s w

/-- The HOST's step: it performs the presented word and goes on to its next one. -/
def hostStep (s : State) : Host.Outcome State Fault Refusal :=
  match s.cmds with
  | [] => .next s
  | w :: ws => perform w { s with cmds := ws }

/-- One step of an enabled agent, the HOST before the ENGINE if `hostFirst`; where no agent is enabled the block keeps
all its state (60_exceptions.md R158; log 5). -/
def turn (hostFirst : Bool) (s : State) : Host.Outcome State Fault Refusal :=
  if hostEnabled s && (!engineEnabled s || hostFirst) then hostStep s
  else .next (engineStep s)

/-- One step under the move that the world outside chose (R13, R160). -/
def stepBy (m : Move) (s : State) : Host.Outcome State Fault Refusal :=
  match m with
  | .host => turn true s
  | .engine => turn false s
  | .reset again => .next (resetCore again s)

/-- One step where the world outside chose no move: the enabled agent steps; where both are enabled a free value
decides (log 3). RESET comes only as a chosen move. -/
def stepFree (s : State) : Host.Outcome State Fault Refusal :=
  if hostEnabled s && engineEnabled s then turn (Config.hostFirst s.tick) { s with tick := s.tick + 1 }
  else turn true s

/-- A run has ended (70_reset_and_hazards.md R173): the HOST has performed its last command and `busy = 0`. -/
def State.runEnded (s : State) : Bool := s.cmds.isEmpty && !s.busy

/-- The HOST presents `w` next, and moves next (log 1). A word that is presented and still held then comes after `w`: the
spec does not say whether the HOST may put another word before a held one (DESIGN CHOICE, log 1). -/
def State.present (s : State) (w : Word) : State := { s with cmds := w :: s.cmds, sched := .host :: s.sched }

end Sys2Proof.Machine
end

