-- ==== Sys2Proof/Machine/Step.lean ====
section
/-! DEFINITION. One step of the machine, and how the host of the pipeline presents a command word. -/

namespace Sys2Proof.Machine

/-- One step: under the next chosen move, if one is chosen (00_scope.md R13; log 3). -/
def step (s : State) : Host.Outcome State Fault Refusal :=
  match s.sched with
  | [] => stepFree s
  | m :: ms => stepBy m { s with sched := ms }

/-- The table word `w` presented as the next command, with the HOST moving next (log 1). -/
def State.withFetchWord (s : State) (nbits w : Nat) : State := s.present (tableWord nbits w)

end Sys2Proof.Machine
end

