-- ==== Sys2Proof/Machine/Assembler.lean ====
section
/-! DEFINITION. The assembler syntax and the pseudo-instructions of the HOST (30_encoding.md R74, R75). A line is a
list of characters. The machine does not use this file: it says which command words a HOST program's text spells. -/

namespace Sys2Proof.Machine

/-- What a line of assembler text can say (R74, R75). -/
inductive AsmItem where
  /-- a command -/
  | command (i : Instr)
  /-- `.word <u32>`: a raw command word, legal or not -/
  | raw (w : Word)
  /-- `ABSORBS "<text>"` -/
  | absorbs (text : List Byte)
  /-- `HASH "<text>"` -/
  | hash (text : List Byte)
  /-- `WAITIDLE` -/
  | waitIdle
  /-- `RDDIGEST` -/
  | rdDigest
  /-- `RDDIGESTHEX` -/
  | rdDigestHex
deriving DecidableEq, Repr

/-- One ABSORB per byte of a text, in order, with no terminator (R75). -/
def absorbAll (text : List Byte) : List Instr := text.map .absorb

/-- The command words an item stands for (R75). WAITIDLE is a loop of the HOST: `polls` is how many RDSTATs its run
presents (log 14). -/
def AsmItem.words (polls : Nat) : AsmItem → List Word
  | .command i => [encode i]
  | .raw w => [w]
  | .absorbs text => (absorbAll text).map encode
  | .hash text => ([Instr.init] ++ absorbAll text ++ [Instr.final]).map encode
  | .waitIdle => List.replicate polls (encode .rdstat)
  | .rdDigest => (List.range 8).map fun k => encode (.rdword (BitVec.ofNat 8 k))
  | .rdDigestHex => (List.range 64).map fun i => encode (.rdhex (BitVec.ofNat 8 i))

/-- Whether these are the responses of one whole run of WAITIDLE (R75): RDSTAT is repeated until bit 0 (BUSY) of its
response is 0. -/
def isWaitIdleRun (responses : List Word) : Bool :=
  match responses.reverse with
  | [] => false
  | r :: earlier => !r.getLsbD 0 && earlier.all fun e => e.getLsbD 0

/-- The byte of an ASCII character; none for any other character (R74). -/
def asciiByte (c : Char) : Option Byte := if c.toNat < 128 then some (BitVec.ofNat 8 c.toNat) else none

/-- The value of a digit in base 10 or 16. R74 does not say how the hexadecimal digits above 9 are written: the model
takes small and capital letters (DESIGN CHOICE, log 14). -/
def digitValue (base : Nat) (c : Char) : Option Nat :=
  let n := c.toNat
  let d :=
    if 48 ≤ n ∧ n ≤ 57 then some (n - 48)
    else if 97 ≤ n ∧ n ≤ 102 then some (n - 87)
    else if 65 ≤ n ∧ n ≤ 70 then some (n - 55)
    else none
  d.filter (· < base)

/-- The digits at the head of a text, read onto `acc`, and the rest. -/
def digitsFrom (base : Nat) : Nat → List Char → Nat × List Char
  | acc, [] => (acc, [])
  | acc, c :: cs =>
    match digitValue base c with
    | some d => digitsFrom base (acc * base + d) cs
    | none => (acc, c :: cs)

/-- A number of at least one digit, and the rest. The spec does not speak of leading zeros: the model takes them, and
they change nothing (DESIGN CHOICE, log 14). -/
def numberIn (base : Nat) (cs : List Char) : Option (Nat × List Char) :=
  match cs with
  | [] => none
  | c :: _ => if (digitValue base c).isSome then some (digitsFrom base 0 cs) else none

/-- The character `'`. -/
def quoteChar : Char := Char.ofNat 39

/-- The character `"`. -/
def doubleQuoteChar : Char := Char.ofNat 34

/-- A decimal number or a `0x` hexadecimal number (R74). -/
def parseNumber (cs : List Char) : Option (Nat × List Char) :=
  match cs with
  | '0' :: 'x' :: rest => numberIn 16 rest
  | _ => numberIn 10 cs

/-- An operand: a number, or a character literal meaning the byte value of the ASCII character (R74). -/
def parseOperand (cs : List Char) : Option (Nat × List Char) :=
  match cs with
  | q :: c :: q' :: rest =>
    if q = quoteChar ∧ q' = quoteChar then (asciiByte c).map fun b => (b.toNat, rest) else parseNumber cs
  | _ => parseNumber cs

/-- A text between double quotes, as ASCII bytes (R75). The text ends at the first double quote: the spec says of no way
to write one inside a text, and the model has none (DESIGN CHOICE, log 14). -/
def parseText (cs : List Char) : Option (List Byte × List Char) :=
  match cs with
  | [] => none
  | q :: rest =>
    if q = doubleQuoteChar then
      match rest.dropWhile (· ≠ doubleQuoteChar) with
      | [] => none
      | _ :: after => ((rest.takeWhile (· ≠ doubleQuoteChar)).mapM asciiByte).map fun bs => (bs, after)
    else none

/-- Nothing but spaces and a comment follows; comments start with `;` (R74). The spaces are DESIGN CHOICE (log 14). -/
def lineEnds (cs : List Char) : Bool :=
  match cs.dropWhile (· = ' ') with
  | [] => true
  | c :: _ => c = ';'

/-- A command without an operand, or a pseudo-instruction without one, by its name (R74, R75). -/
def bareItem (name : List Char) : Option AsmItem :=
  if name = ['N', 'O', 'P'] then some (.command .nop)
  else if name = ['I', 'N', 'I', 'T'] then some (.command .init)
  else if name = ['F', 'I', 'N', 'A', 'L'] then some (.command .final)
  else if name = ['R', 'D', 'S', 'T', 'A', 'T'] then some (.command .rdstat)
  else if name = ['W', 'A', 'I', 'T', 'I', 'D', 'L', 'E'] then some .waitIdle
  else if name = ['R', 'D', 'D', 'I', 'G', 'E', 'S', 'T'] then some .rdDigest
  else if name = ['R', 'D', 'D', 'I', 'G', 'E', 'S', 'T', 'H', 'E', 'X'] then some .rdDigestHex
  else none

/-- A command with an operand, by its name (R74). -/
def operandCommand (name : List Char) : Option (Byte → Instr) :=
  if name = ['A', 'B', 'S', 'O', 'R', 'B'] then some .absorb
  else if name = ['R', 'D', 'W', 'O', 'R', 'D'] then some .rdword
  else if name = ['R', 'D', 'B', 'Y', 'T', 'E'] then some .rdbyte
  else if name = ['R', 'D', 'H', 'E', 'X'] then some .rdhex
  else none

/-- A pseudo-instruction with a text, by its name (R75). -/
def textItem (name : List Char) : Option (List Byte → AsmItem) :=
  if name = ['A', 'B', 'S', 'O', 'R', 'B', 'S'] then some .absorbs
  else if name = ['H', 'A', 'S', 'H'] then some .hash
  else none

/-- The item a name and what follows it spell, with the rest of the line. An operand outside the range of R66 is
refused, and so is a `.word` of more than 32 bits; only `.word` spells an illegal word (R74). R74 does not say how the
`<u32>` of `.word` may be written: the model takes a decimal or a `0x` number and refuses a character literal (DESIGN
CHOICE, log 14). -/
def parseItem (name rest : List Char) : Option (AsmItem × List Char) :=
  match bareItem name with
  | some item => some (item, rest)
  | none =>
    match rest with
    | ' ' :: arg =>
      match operandCommand name with
      | some mk =>
        (parseOperand arg).bind fun (n, after) =>
          if n < 256 ∧ (mk (BitVec.ofNat 8 n)).wf then some (.command (mk (BitVec.ofNat 8 n)), after) else none
      | none =>
        match textItem name with
        | some mk => (parseText arg).map fun (text, after) => (mk text, after)
        | none =>
          if name = ['.', 'w', 'o', 'r', 'd'] then
            (parseNumber arg).bind fun (n, after) =>
              if n < 2 ^ 32 then some (.raw (BitVec.ofNat 32 n), after) else none
          else none
    | _ => none

/-- One line of assembler text (R74): no item for an empty line or a comment; refused (`none`) where it is neither. That
empty lines and leading spaces are accepted is DESIGN CHOICE (log 14). -/
def parseLine (line : List Char) : Option (Option AsmItem) :=
  let cs := line.dropWhile (· = ' ')
  if lineEnds cs then some none
  else
    match parseItem (cs.takeWhile fun c => c ≠ ' ' ∧ c ≠ ';') (cs.dropWhile fun c => c ≠ ' ' ∧ c ≠ ';') with
    | some (item, after) => if lineEnds after then some (some item) else none
    | none => none

end Sys2Proof.Machine
end

