-- ==== Sys2Proof/Machine/Atomic.lean ====
section
/-! DEFINITION. The atomic form of the machine (70_reset_and_hazards.md R172): all the ENGINE's micro-steps are
performed inside the command that starts it. `step` does not call it: it is what the two-agent form is compared with. -/

namespace Sys2Proof.Machine

/-- All the micro-steps that follow from here, at most 132 (41_compression.md R119). -/
def settle (s : State) : State := engineRun 132 s

/-- The state after performing `w` (no word stops the machine, 60_exceptions.md R150). -/
def performed (w : Word) (s : State) : State :=
  match perform w s with
  | .next t => t
  | .fault _ => s
  | .refused _ => s

/-- The atomic form: perform each word, and settle, in order (R172). -/
def atomicRun : List Word → State → State
  | [], s => s
  | w :: ws, s => atomicRun ws (settle (performed w s))

end Sys2Proof.Machine
end

