-- ==== Sys2Proof/Machine/Platform.lean ====
section
/-! DEFINITION. A platform of independent cores (00_scope.md R8; 10_state.md R35; 60_exceptions.md R157). -/

namespace Sys2Proof.Machine

/-- `n` cores, each with its own copy of every element of the state (R35). -/
structure Platform (n : Nat) where
  cores : Vector State n
deriving DecidableEq, Repr

/-- The platform of the parameter `N_INSTANCES` (R8). -/
abbrev OurPlatform := Platform Config.nInstances

/-- Every core after its own RESET (R157). -/
def Platform.reset (n : Nat) : Platform n := ⟨Vector.replicate n State.reset⟩

/-- One step of core `i`; the cores send each other nothing (R157). -/
def Platform.stepCore {n : Nat} (p : Platform n) (i : Fin n) : Host.Outcome (Platform n) Fault Refusal :=
  match step p.cores[i] with
  | .next s => .next ⟨p.cores.set i s⟩
  | .fault r => .fault r
  | .refused r => .refused r

end Sys2Proof.Machine
end

