-- ==== Sys2Proof/Machine/Ports.lean ====
section
/-! DEFINITION. The block's ports (30_encoding.md R73): what they show of the state, and the block under a clock, with
the two open cycle parameters of 00_scope.md R8 as arguments. `step` is the normative transaction level; the spec puts
cycle-level timing out of scope (00_scope.md R5 (f)) and calls the cycle relationships its own choice (R73; log 13). -/

namespace Sys2Proof.Machine

/-- `cmd_valid` (R73): the HOST presents a word. -/
def cmdValid (s : State) : Bool := !s.cmds.isEmpty

/-- `cmd_data` (R73): the word presented. -/
def cmdData (s : State) : Option Word := s.cmds.head?

/-- `cmd_ready = accepted(cmd_data)` (R73, 70_reset_and_hazards.md R166). -/
def cmdReady (s : State) (w : Word) : Bool := accepted s w

/-- The inputs at one rising edge of `clk` (R73). Each edge has its own: the HOST may withdraw or replace a word that is
not accepted, of which the spec says nothing (DESIGN CHOICE, log 13). -/
structure PortInputs where
  rst : Bool
  cmdValid : Bool
  cmdData : Word
deriving DecidableEq, Repr

/-- The outputs in one cycle (R73). `rsp` is `rsp_data` where `rsp_valid` is 1, and none where it is 0. -/
structure PortOutputs where
  cmdReady : Bool
  rsp : Option Word
  busyO : Bool
  doneO : Bool
  errO : Bool
deriving DecidableEq, Repr

/-- The block under a clock. -/
structure Clocked where
  /-- the core -/
  block : State
  /-- the cycles the coming micro-step has taken so far -/
  waited : Nat
  /-- the responses under way, one entry a cycle, the next due first -/
  pipe : List (Option Word)
deriving DecidableEq, Repr

/-- The block after RESET, with `RSP_LATENCY = latency`. -/
def Clocked.reset (latency : Nat) : Clocked := ⟨State.reset, 0, List.replicate latency none⟩

/-- The block with the latency of `Config` (log 11). -/
def Clocked.ours : Clocked := Clocked.reset Config.rspLatency

/-- The word accepted at this edge (R73): `cmd_valid` and `cmd_ready` both 1. RESET wins over it (log 13). -/
def Clocked.accepts (c : Clocked) (i : PortInputs) : Bool := !i.rst && i.cmdValid && cmdReady c.block i.cmdData

/-- The response the command of this edge gives, if one is accepted (30_encoding.md R72). -/
def Clocked.answer (c : Clocked) (i : PortInputs) : Option Word :=
  if c.accepts i then (performed i.cmdData c.block).rsps.getLast? else none

/-- Whether the ENGINE's coming micro-step is complete at this edge, with `CYCLES_PER_STEP = perStep`. -/
def Clocked.stepDue (perStep : Nat) (c : Clocked) : Bool := engineEnabled c.block && decide (perStep ≤ c.waited + 1)

/-- The outputs in the cycle before an edge, `RSP_LATENCY` being the length of `pipe`. -/
def Clocked.outputs (c : Clocked) (i : PortInputs) : PortOutputs where
  cmdReady := cmdReady c.block i.cmdData
  rsp := ((c.pipe ++ [c.answer i]).head?).join
  busyO := busyO c.block
  doneO := doneO c.block
  errO := errO c.block

/-- One rising edge of `clk`: RESET, or the command accepted and the micro-step due. Both read the state before the
edge. The responses under way move on. -/
def Clocked.edge (perStep : Nat) (c : Clocked) (i : PortInputs) : Clocked where
  block :=
    if i.rst then resetCore true c.block
    else
      let s := if c.accepts i then performed i.cmdData c.block else c.block
      if c.stepDue perStep then engineStep s else s
  waited := if i.rst || c.stepDue perStep || !engineEnabled c.block then 0 else c.waited + 1
  pipe := (c.pipe ++ [c.answer i]).tail

/-- The cycles of a list of inputs: the outputs of each. -/
def Clocked.run (perStep : Nat) : List PortInputs → Clocked → List PortOutputs
  | [], _ => []
  | i :: is, c => c.outputs i :: Clocked.run perStep is (c.edge perStep i)

/-- The response given at each cycle's edge, before it goes through `pipe`. -/
def Clocked.answers (perStep : Nat) : List PortInputs → Clocked → List (Option Word)
  | [], _ => []
  | i :: is, c => c.answer i :: Clocked.answers perStep is (c.edge perStep i)

/-- One edge with the `CYCLES_PER_STEP` of `Config` (log 11). -/
def Clocked.ourEdge (c : Clocked) (i : PortInputs) : Clocked := c.edge Config.cyclesPerStep i

end Sys2Proof.Machine
end

