-- ==== Sys2Proof/Machine/Algorithm.lean ====
section
/-! DEFINITION. The whole-message functions of the source: padding (40_preprocessor.md R80 to R84), schedule and
compression (41_compression.md R107, R114), the hash (R115) and its hexadecimal rendering (42_control_readout.md
R138). The machine does not call them: they are what it is compared with. -/

namespace Sys2Proof.Machine

/-- The bits of a byte, the most significant first (R80, step 1). -/
def byteBits (b : Byte) : List Bool := (List.range 8).map fun i => b.getMsbD i

/-- `k = (447 − 8L) mod 512`, the number of zero bits step 3 of R80 appends (R81). -/
def zeroBits (len : Nat) : Nat := (512 + 447 - 8 * len % 512) % 512

/-- `pad(M)` as a bit stream, by the four steps of R80. R80 defines it for `L ≤ MAXLEN`. For a longer message this total
function writes the low 64 bits of `8L` (DESIGN CHOICE, log 16): the block has raised E_OVF before (C2). -/
def padBits (m : List Byte) : List Bool :=
  m.flatMap byteBits ++ [true] ++ List.replicate (zeroBits m.length) false
    ++ (be64 (BitVec.ofNat 64 (8 * m.length))).toList.flatMap byteBits

/-- `z = (55 − L) mod 64`, the number of zero bytes (R82). -/
def zeroBytes (len : Nat) : Nat := (64 + 55 - len % 64) % 64

/-- `pad(M)` as bytes (R82), for `L ≤ MAXLEN`; beyond it, as `padBits` (DESIGN CHOICE, log 16). -/
def pad (m : List Byte) : List Byte :=
  m ++ [0x80] ++ List.replicate (zeroBytes m.length) 0x00 ++ (be64 (BitVec.ofNat 64 (8 * m.length))).toList

/-- `N(L)`, the number of blocks of a padded message of `L` bytes (R81). -/
def blockCount (len : Nat) : Nat := (len + 8) / 64 + 1

/-- Block `n` of a padded message: bytes `64n .. 64n + 63` (R82). -/
def padBlock (m : List Byte) (n : Nat) : Vector Byte 64 := tabulate 64 fun j => (pad m).getD (64 * n + j.val) 0

/-- The blocks of a padded message, in order (R82). -/
def padBlocks (m : List Byte) : List (Vector Byte 64) := (List.range (blockCount m.length)).map (padBlock m)

/-- The first `n` entries of the schedule of a block, the rest 0 (R107). -/
def scheduleTo (m : Vector Word 16) : Nat → Vector Word 64
  | 0 => Vector.replicate 64 0
  | n + 1 =>
    let w := scheduleTo m n
    if lo : n < 16 then w.set n m[n]
    else if hi : n < 64 then w.set n (scheduleWord w n (by omega) hi)
    else w

/-- `schedule(M)` (R107). -/
def schedule (m : Vector Word 16) : Vector Word 64 := scheduleTo m 64

/-- The working registers `V_n` after `n` rounds (R114): `V_0 = H`, `V_{n+1} = round(V_n, K[n], W[n])`. -/
def roundsFrom (k w : Vector Word 64) (h : Vector Word 8) : Nat → Vector Word 8
  | 0 => h
  | n + 1 => if lt : n < 64 then roundFn (roundsFrom k w h n) k[n] w[n] else roundsFrom k w h n

/-- `compress(H, M)` (R114), for the round constants `k`. -/
def compress (k : Vector Word 64) (h : Vector Word 8) (m : Vector Word 16) : Vector Word 8 :=
  let v := roundsFrom k (schedule m) h 64
  tabulate 8 fun i => h[i] + v[i]

/-- `H_n` (R115): the hash state after the first `n` blocks of the padded message. -/
def hashAfter (m : List Byte) : Nat → Vector Word 8
  | 0 => iv
  | n + 1 => compress roundConstants (hashAfter m n) (blockWords (padBlock m n))

/-- `hash(m)` (R115), the eight words whose big-endian bytes are the digest, for `L ≤ MAXLEN`; beyond it no hash at all
(DESIGN CHOICE, log 16). -/
def hashOf (m : List Byte) : Vector Word 8 := hashAfter m (blockCount m.length)

end Sys2Proof.Machine
end

