-- ==== Sys2Proof/Safety.lean ====
section
/-! DEFINITION. The terms claims are stated in: the invariants of 10_state.md R38, the reachable states, and what
happened in a step. -/

namespace Sys2Proof.Machine

/-- The clauses (a) to (g) of 10_state.md R38, word by word. -/
abbrev State.R38 (s : State) : Prop :=
  (s.busy = false ↔ s.estep = .idle)
  ∧ (s.busy = false → s.fin = .none)
  ∧ (s.busy = false → s.phase ≠ .done → s.bufcnt = s.len % 64)
  ∧ (s.phase = .done → s.bufcnt = 0)
  ∧ (s.busy = true → s.estep = .load → s.bufcnt = 64)
  ∧ (s.phase = .done ∨ s.phase = .error → s.busy = false)
  ∧ (s.phase = .error → s.eOvf = true)
  ∧ (s.busy = true → s.phase = .absorb)
  ∧ (s.estep = .round → s.t ≤ 63)

/-- The widths of 10_state.md R20 that the types of the three counters do not hold. -/
abbrev State.widths (s : State) : Prop := s.bufcnt ≤ 64 ∧ s.len ≤ Config.maxLen ∧ s.t ≤ 64

/-- The invariant every step keeps: R38 and what it takes to carry it from one step to the next. -/
abbrev State.Inv (s : State) : Prop :=
  s.k = roundConstants
  ∧ s.len ≤ Config.maxLen
  ∧ (s.busy = false → s.estep = .idle ∧ s.fin = .none ∧ s.t = 0)
  ∧ (s.busy = true → s.estep ≠ .idle ∧ s.phase = .absorb)
  ∧ (s.busy = false → s.phase ≠ .done → s.bufcnt = s.len % 64)
  ∧ (s.phase = .done → s.bufcnt = 0)
  ∧ (s.phase = .error ↔ s.eOvf = true)
  ∧ (s.estep = .load → s.bufcnt = 64 ∧ s.t = 0)
  ∧ (s.estep = .round → s.bufcnt = 0 ∧ s.t ≤ 63)
  ∧ (s.estep = .accum → s.bufcnt = 0 ∧ s.t = 64)
  ∧ (s.busy = true → s.fin = .none → s.len % 64 = 0)
  ∧ (s.fin = .pad2 → 56 ≤ s.len % 64)

/-- The state after RESET with the world outside as given: what the HOST will present and which moves are chosen. -/
def resetWith (cmds : List Word) (sched : List Move) (tick : Nat) : State :=
  { State.reset with cmds := cmds, sched := sched, tick := tick }

/-- A state that some run from RESET passes through, whatever the HOST presents and whoever moves. -/
def Reachable (s : State) : Prop :=
  ∃ cmds sched tick n, Sys2Proof.core.run n (resetWith cmds sched tick) = .next s

/-- RESET is the move chosen for this step. -/
def resetTaken (s : State) : Prop := ∃ again ms, s.sched = .reset again :: ms

/-- The step from `s` to `t` performed the presented word `w`. -/
def wordPerformed (w : Word) (s t : State) : Prop := s.cmds = w :: t.cmds ∧ accepted s w = true

/-- No RESET is among the chosen moves. -/
def noReset (sched : List Move) : Prop := ∀ again, Move.reset again ∉ sched

/-- The elements of the block itself (10_state.md R20): the state less the world outside it. -/
def State.block (s : State) : State := { s with cmds := [], rsps := [], sched := [], tick := 0 }

end Sys2Proof.Machine

namespace Sys2Proof

/-- A command that neither feeds nor closes nor discards the message (40_preprocessor.md R88): NOP, RDSTAT, a read. -/
def Instr.quiet : Instr → Bool
  | .nop => true
  | .init => false
  | .absorb _ => false
  | .final => false
  | .rdstat => true
  | .rdword _ => true
  | .rdbyte _ => true
  | .rdhex _ => true

end Sys2Proof

namespace Sys2Proof.Machine

/-- The commands `ABSORB m_0, …, ABSORB m_{L−1}, FINAL` (R88). -/
def messageCommands (m : List Byte) : List Instr := m.map .absorb ++ [.final]

/-- The HOST presents the message `m`, from the state after INIT or RESET, with legal quiet commands in any places
and no RESET (R88). -/
def presentsMessage (m : List Byte) (s : State) : Prop :=
  m.length ≤ Config.maxLen ∧ noReset s.sched ∧ s.k = roundConstants
  ∧ s.block = (startMessage s).block
  ∧ ∃ cs : List Instr, s.cmds = cs.map encode ∧ cs.all Instr.wf = true
      ∧ cs.filter (fun i => !i.quiet) = messageCommands m

/-- The blocks that LOAD micro-steps read in the first `n` steps, in order. -/
def loadedBlocks : Nat → State → List (Vector Byte 64)
  | 0, _ => []
  | n + 1, s =>
    match step s with
    | .next t => (if s.estep = .load ∧ t.estep = .round then [s.buf] else []) ++ loadedBlocks n t
    | .fault _ => []
    | .refused _ => []

end Sys2Proof.Machine
end

