-- ==== Sys2Proof/Certificates/Slice0/Obligations.lean ====
section
/-! DEFINITION. The statements for the provers. Each says which rule of spec/ it formalises; one that rests on an
inference the spec marks as its own ("[derived: …]") or on a choice of this model says so. -/

open Sys2Proof Sys2Proof.Machine

/-! ## Encoding -/

/-- Decoding an encoded command gives it back, with every operand at every value its encoding admits; an operand out
of range (30_encoding.md R66) is refused by that name. -/
def Obligations.DecodeOfEncodeGivesTheCommandBack : Prop :=
  ∀ i : Instr, (i.wf = true → decode (encode i) = .ok i)
    ∧ (i.wf = false → decode (encode i) = .error .operandRange)

/-- A word that decodes is the one word of its command, and the command is well formed. -/
def Obligations.EncodeOfDecodeGivesTheWordBack : Prop :=
  ∀ (w : Word) (i : Instr), decode w = .ok i → encode i = w ∧ i.wf = true

/-- 30_encoding.md R68: a word is the command of a row exactly when `w and mask = match`, its operand is `opd`, no word
is two commands, and the opcodes 0x8 to 0xF are reserved. -/
def Obligations.MatchAndMaskSelectTheCommand : Prop :=
  (∀ r ∈ opcodeMap, ∀ w : Word, (w &&& r.mask = r.pattern) ↔
      ∃ i, decode w = .ok i ∧ i.mnemonic = r.mnemonic ∧ (i.takesOperand = true → i.operand = w.extractLsb' 0 8))
  ∧ opcodeMap.map OpcodeRow.mnemonic = ["NOP", "INIT", "ABSORB", "FINAL", "RDSTAT", "RDWORD", "RDBYTE", "RDHEX"]
  ∧ (∀ w : Word, ∀ r ∈ opcodeMap, ∀ r' ∈ opcodeMap, r.matches w = true → r'.matches w = true → r = r')
  ∧ ∀ w : Word, 8 ≤ (w.extractLsb' 28 4).toNat → decode w = .error .reservedOpcode

/-- 30_encoding.md R69: a word is legal exactly when it matches a row of the opcode map, and exactly then the decoder
gives a command. -/
def Obligations.LegalWordsAreTheTableWords : Prop :=
  (∀ w : Word, legal w = true ↔ ∃ r ∈ opcodeMap, r.matches w = true)
  ∧ ∀ w : Word, legal w = true ↔ ∃ i, decode w = .ok i

/-- The count in 30_encoding.md R69, which the spec marks as derived: of all words, exactly 364 are legal. -/
def Obligations.Exactly364WordsAreLegal : Prop :=
  ∃ l : List Word, l.Nodup ∧ l.length = 364 ∧ ∀ w : Word, w ∈ l ↔ legal w = true

/-- The legal column of 95_test_vectors.md section 2.5, every word of the table: a legal word decodes to the command
the table names, an illegal one is refused by the reason the table gives; and `ABSORB 0x61` of section 2.4. -/
def Obligations.SampleWordsDecode : Prop :=
  decode 0x00000000 = .ok .nop
  ∧ decode 0x00000001 = .error .operandRange
  ∧ decode 0x00000100 = .error .reservedField
  ∧ decode 0x10000000 = .ok .init
  ∧ decode 0x100000ff = .error .operandRange
  ∧ decode 0x20000000 = .ok (.absorb 0x00) ∧ decode 0x200000ff = .ok (.absorb 0xff)
  ∧ decode 0x20000100 = .error .reservedField
  ∧ decode 0x30000000 = .ok .final
  ∧ decode 0x40000000 = .ok .rdstat
  ∧ decode 0x40000001 = .error .operandRange
  ∧ decode 0x50000007 = .ok (.rdword 7)
  ∧ decode 0x50000008 = .error .operandRange
  ∧ decode 0x6000001f = .ok (.rdbyte 31) ∧ decode 0x60000020 = .error .operandRange
  ∧ decode 0x7000003f = .ok (.rdhex 63) ∧ decode 0x70000040 = .error .operandRange
  ∧ decode 0x80000000 = .error .reservedOpcode ∧ decode 0xf0000000 = .error .reservedOpcode
  ∧ decode 0x20000061 = .ok (.absorb 0x61)

/-! ## The step: HOST, ENGINE, RESET -/

/-- A step in which the HOST moves on an accepted word performs the command the word decodes to, at the state that has
moved past the word. It moves when the chosen move is `host`, and whenever the ENGINE is idle (log 1, log 3). -/
def Obligations.StepPerformsThePresentedCommand : Prop :=
  ∀ (s : State) (w : Word) (ws : List Word) (i : Instr),
    s.cmds = w :: ws → accepted s w = true → decode w = .ok i →
      (∀ ms, s.sched = .host :: ms → step s = exec i { s with cmds := ws, sched := ms })
      ∧ (s.busy = false → s.sched = [] → step s = exec i { s with cmds := ws })
      ∧ (s.busy = false → ∀ ms, s.sched = .engine :: ms → step s = exec i { s with cmds := ws, sched := ms })

/-- A step in which the HOST has no step, or the ENGINE was chosen, is the ENGINE's micro-step (00_scope.md R13); where
both may step and nothing is chosen it is one of the two (log 3). -/
def Obligations.EngineStepsByItself : Prop :=
  ∀ s : State, engineEnabled s = true →
    (∀ ms, s.sched = .engine :: ms → step s = .next (engineStep { s with sched := ms }))
    ∧ (hostEnabled s = false →
        (∀ ms, s.sched = .host :: ms → step s = .next (engineStep { s with sched := ms }))
        ∧ (s.sched = [] → step s = .next (engineStep s)))
    ∧ (hostEnabled s = true → s.sched = [] →
        step s = hostStep { s with tick := s.tick + 1 } ∨ step s = .next (engineStep { s with tick := s.tick + 1 }))

/-- 70_reset_and_hazards.md R166 and 30_encoding.md R72: when the HOST is to move, a presented word is performed, with
exactly one response after all earlier ones, exactly when `busy = 0` or it is NOP's or RDSTAT's word; any other word
stays presented and gets no response. -/
def Obligations.AcceptedWordGetsOneResponseHeldWordNone : Prop :=
  ∀ (s : State) (w : Word) (ws : List Word) (ms : List Move), s.cmds = w :: ws → s.sched = .host :: ms →
    ((s.busy = false ∨ w = 0x00000000 ∨ w = 0x40000000) →
      ∃ t r, step s = .next t ∧ t.cmds = ws ∧ t.rsps = s.rsps ++ [r] ∧ (legal w = false → r = 0))
    ∧ (¬(s.busy = false ∨ w = 0x00000000 ∨ w = 0x40000000) →
      ∃ t, step s = .next t ∧ t.cmds = w :: ws ∧ t.rsps = s.rsps)

/-- Every step answers a next state: no command, no illegal word, no micro-step and no RESET stops the machine
(60_exceptions.md R150, R153; 41_compression.md R118). -/
def Obligations.EveryStepAnswersANextState : Prop :=
  (∀ (i : Instr) (s : State), ∃ t, exec i s = .next t) ∧ ∀ s : State, ∃ t, step s = .next t

/-- 60_exceptions.md R146, 30_encoding.md R70: an illegal word, when it is accepted, sets `e_ill` and returns response
0, and has no other effect; it is held while the ENGINE runs. -/
def Obligations.IllegalWordSetsOnlyTheIllFlag : Prop :=
  ∀ (s : State) (w : Word) (ws : List Word) (ms : List Move), s.cmds = w :: ws → legal w = false →
    s.sched = .host :: ms →
    (s.busy = false →
      step s = .next { s with cmds := ws, sched := ms, eIll := true, rsps := s.rsps ++ [0] })
    ∧ (s.busy = true → ∃ t, step s = .next t ∧ t.eIll = s.eIll ∧ t.cmds = w :: ws ∧ t.rsps = s.rsps)

/-- 70_reset_and_hazards.md R160: RESET, taken between any two steps, sets every element to the value of
10_state.md R40, whether or not the ENGINE is running; the round constants stay, no response is produced, and the
waiting word is not performed. THE MODEL'S CHOICE (log 4): the clause on `cmds`, that the HOST presents the waiting
word again exactly where the move says so, and its other words as before; the spec leaves that to the HOST. -/
def Obligations.ResetSetsEveryElement : Prop :=
  ∀ (s : State) (again : Bool) (ms : List Move), s.sched = .reset again :: ms →
    ∃ t, step s = .next t
      ∧ t = { State.reset with
              k := s.k, cmds := if again then s.cmds else s.cmds.tail, rsps := s.rsps, sched := ms, tick := s.tick }
      ∧ status t = 0x00000000

/-- 10_state.md R40: the value of every element after RESET, that INIT leaves the same, and that any word is accepted at
once (70_reset_and_hazards.md R162). -/
def Obligations.ResetStateHasTheResetValues : Prop :=
  State.reset.h = #v[0x6a09e667, 0xbb67ae85, 0x3c6ef372, 0xa54ff53a, 0x510e527f, 0x9b05688c, 0x1f83d9ab, 0x5be0cd19]
  ∧ (∀ i : Fin 8, State.reset.v[i] = 0) ∧ (∀ i : Fin 64, State.reset.w[i] = 0)
  ∧ State.reset.k = roundConstants ∧ (∀ i : Fin 64, State.reset.buf[i] = 0)
  ∧ State.reset.bufcnt = 0 ∧ State.reset.len = 0 ∧ State.reset.phase = .absorb ∧ State.reset.busy = false
  ∧ State.reset.estep = .idle ∧ State.reset.t = 0 ∧ State.reset.fin = .none
  ∧ State.reset.eOvf = false ∧ State.reset.eIll = false ∧ State.reset.eSeq = false ∧ status State.reset = 0
  ∧ (∀ w : Word, accepted State.reset w = true)
  ∧ ∀ s : State, s.busy = false → ∃ t, exec .init s = .next t ∧ t.block = { State.reset.block with k := s.k }

/-! ## The commands -/

/-- 42_control_readout.md R130: NOP is accepted in every state, answers 0 and leaves the state unchanged; every other
word with opcode 0 is illegal; a NOP while the ENGINE runs does not disturb it. -/
def Obligations.NopAnswersZeroAndChangesNothing : Prop :=
  encode .nop = 0x00000000
  ∧ (∀ s : State, accepted s (encode .nop) = true ∧ exec .nop s = .next { s with rsps := s.rsps ++ [0] })
  ∧ (∀ w : Word, w.extractLsb' 28 4 = 0 → w ≠ 0 → legal w = false)
  ∧ ∀ s t : State, exec .nop s = .next t → exec .nop (engineStep s) = .next (engineStep t)

/-- 42_control_readout.md R131: INIT, accepted when `busy = 0`, sets every element to its initial value and answers 0;
STATUS becomes 0. While `busy = 1` it is held. -/
def Obligations.InitStartsANewMessage : Prop :=
  encode .init = 0x10000000
  ∧ (∀ s : State, accepted s (encode .init) = !s.busy)
  ∧ ∀ s : State, s.busy = false → ∃ t, exec .init s = .next t
      ∧ t = { State.reset with
              k := s.k, cmds := s.cmds, rsps := s.rsps ++ [0], sched := s.sched, tick := s.tick }
      ∧ status t = 0x00000000

/-- 40_preprocessor.md R85: what ABSORB does in an idle block, in each of its three cases; everything not named is
unchanged. `bufcnt ≤ 63` holds here in every reachable state (10_state.md R38, obligation EveryStepKeepsTheInvariant).
The last case is where ABSORB completes with its own effect. -/
def Obligations.AbsorbAppendsOneByte : Prop :=
  ∀ (s : State) (b : Byte),
    (encode (.absorb b)).toNat = 0x20000000 + b.toNat ∧ accepted s (encode (.absorb b)) = !s.busy
    ∧ (s.busy = false → s.phase ≠ .absorb →
        exec (.absorb b) s = .next { s with eSeq := true, rsps := s.rsps ++ [0] })
    ∧ (s.busy = false → s.phase = .absorb → s.len = 2 ^ 61 - 1 →
        exec (.absorb b) s = .next { s with eOvf := true, phase := .error, rsps := s.rsps ++ [0] })
    ∧ (s.busy = false → s.phase = .absorb → s.len ≠ 2 ^ 61 - 1 → ∀ lt : s.bufcnt < 64,
        exec (.absorb b) s = .next
          (if s.bufcnt = 63 then
            { s with
              buf := s.buf.set s.bufcnt b, bufcnt := 64, len := s.len + 1, rsps := s.rsps ++ [0],
              fin := .none, busy := true, estep := .load }
          else
            { s with buf := s.buf.set s.bufcnt b, bufcnt := s.bufcnt + 1, len := s.len + 1, rsps := s.rsps ++ [0] }))

/-- 40_preprocessor.md R86: what FINAL does in an idle block; the buffer is given byte by byte, and everything not
named is unchanged. R86 forms the length bytes for `len ≤ MAXLEN`, which holds in every reachable state (10_state.md R32,
obligation EveryStepKeepsTheInvariant), and only their clause assumes it. -/
def Obligations.FinalPadsAndStartsTheEngine : Prop :=
  ∀ s : State,
    encode .final = 0x30000000 ∧ accepted s (encode .final) = !s.busy
    ∧ (s.busy = false → s.phase ≠ .absorb → exec .final s = .next { s with eSeq := true, rsps := s.rsps ++ [0] })
    ∧ (s.busy = false → s.phase = .absorb → s.bufcnt < 64 →
        ∃ buf : Vector Byte 64,
          exec .final s = .next { s with
            buf := buf, bufcnt := 64, fin := if s.bufcnt ≤ 55 then .last else .pad2, busy := true, estep := .load,
            rsps := s.rsps ++ [0] }
          ∧ (∀ j : Fin 64, j.val < s.bufcnt → buf[j] = s.buf[j])
          ∧ (∀ j : Fin 64, j.val = s.bufcnt → buf[j] = 0x80)
          ∧ (∀ j : Fin 64, s.bufcnt < j.val → (55 < s.bufcnt ∨ j.val < 56) → buf[j] = 0x00)
          ∧ (s.len ≤ Config.maxLen → ∀ j : Fin 64, s.bufcnt ≤ 55 → 56 ≤ j.val →
              buf[j] = BitVec.ofNat 8 (8 * s.len / 256 ^ (63 - j.val))))

/-- 20_memory.md R47: the length field of the block that carries it, FINAL's or the length-only one, is the big-endian
64-bit bit length: block word 14 its high half, block word 15 its low half (R47 marks the words as derived). -/
def Obligations.LengthFieldIsBigEndian : Prop :=
  ∀ s : State, s.len ≤ Config.maxLen →
    ((blockWord (lengthOnlyBuf s.len) 14).toNat = 8 * s.len / 2 ^ 32
      ∧ (blockWord (lengthOnlyBuf s.len) 15).toNat = 8 * s.len % 2 ^ 32)
    ∧ (s.bufcnt ≤ 55 → s.busy = false → s.phase = .absorb →
        ∃ t, exec .final s = .next t ∧ (blockWord t.buf 14).toNat = 8 * s.len / 2 ^ 32
          ∧ (blockWord t.buf 15).toNat = 8 * s.len % 2 ^ 32)

/-- 42_control_readout.md R132: RDSTAT is accepted in every state, answers STATUS and changes nothing else; while the
ENGINE is compressing, in every state that meets the invariant, its response has BUSY = 1 and PHASE = ABSORB. -/
def Obligations.RdstatAnswersStatus : Prop :=
  encode .rdstat = 0x40000000
  ∧ (∀ s : State, accepted s (encode .rdstat) = true
      ∧ exec .rdstat s = .next { s with rsps := s.rsps ++ [status s] })
  ∧ ∀ s : State, s.Inv → s.busy = true → (status s).extractLsb' 0 3 = 0b001#3

/-- 10_state.md R33: STATUS, field by field, all the other bits 0; PHASE is never 3; after reset STATUS is 0. -/
def Obligations.StatusFieldsAreAsLaidOut : Prop :=
  status State.reset = 0x00000000
  ∧ ∀ s : State,
    (status s).extractLsb' 0 1 = BitVec.ofBool s.busy
    ∧ (status s).extractLsb' 1 2 = (match s.phase with | .absorb => 0#2 | .done => 1#2 | .error => 2#2)
    ∧ (status s).extractLsb' 3 1 = 0#1
    ∧ (status s).extractLsb' 4 1 = BitVec.ofBool s.eOvf
    ∧ (status s).extractLsb' 5 1 = BitVec.ofBool s.eIll
    ∧ (status s).extractLsb' 6 1 = BitVec.ofBool s.eSeq
    ∧ (status s).extractLsb' 7 1 = 0#1
    ∧ ((status s).extractLsb' 8 6).toNat = s.len % 64
    ∧ (status s).extractLsb' 14 18 = 0#18

/-- 42_control_readout.md R133: RDWORD k answers hash-state word `k` in every phase and changes nothing else; the word
of an operand of 8 or more is illegal; while `busy = 1` RDWORD is held. THE MODEL'S CHOICE (log 7): the meaning of the
ill-formed RDWORD, which no step calls, raises E_ILL itself. -/
def Obligations.RdwordAnswersTheHashWord : Prop :=
  ∀ (s : State) (k : Byte),
    (encode (.rdword k)).toNat = 0x50000000 + k.toNat ∧ accepted s (encode (.rdword k)) = !s.busy
    ∧ (s.busy = false → ∀ lt : k.toNat < 8, exec (.rdword k) s = .next { s with rsps := s.rsps ++ [s.h[k.toNat]] })
    ∧ (s.busy = false → 8 ≤ k.toNat →
        exec (.rdword k) s = .next { s with eIll := true, rsps := s.rsps ++ [0] } ∧ legal (encode (.rdword k)) = false)

/-- 42_control_readout.md R134, 20_memory.md R48: RDBYTE i answers bits `31 − 8·(i mod 4)` down to `24 − 8·(i mod 4)`
of `H[i div 4]`, zero-extended, and changes nothing else; the word of an operand of 32 or more is illegal; while
`busy = 1` RDBYTE is held. THE MODEL'S CHOICE (log 7): the meaning of the ill-formed RDBYTE, which no step calls,
raises E_ILL itself. -/
def Obligations.RdbyteAnswersTheDigestByte : Prop :=
  ∀ (s : State) (i : Byte),
    (encode (.rdbyte i)).toNat = 0x60000000 + i.toNat ∧ accepted s (encode (.rdbyte i)) = !s.busy
    ∧ (s.busy = false → ∀ lt : i.toNat < 32, exec (.rdbyte i) s = .next
        { s with rsps := s.rsps ++ [(s.h[i.toNat / 4] >>> (24 - 8 * (i.toNat % 4))) &&& 0xFF] })
    ∧ (s.busy = false → 32 ≤ i.toNat →
        exec (.rdbyte i) s = .next { s with eIll := true, rsps := s.rsps ++ [0] }
        ∧ legal (encode (.rdbyte i)) = false)

/-- 42_control_readout.md R135, R136: RDHEX i answers the ASCII code of the lowercase hexadecimal digit of bits
`31 − 4·(i mod 8)` down to `28 − 4·(i mod 8)` of `H[i div 8]`, zero-extended, and changes nothing else; the word of an
operand of 64 or more is illegal; while `busy = 1` RDHEX is held. THE MODEL'S CHOICE (log 7): the meaning of the
ill-formed RDHEX, which no step calls, raises E_ILL itself. -/
def Obligations.RdhexAnswersTheDigestCharacter : Prop :=
  ∀ (s : State) (i : Byte),
    (encode (.rdhex i)).toNat = 0x70000000 + i.toNat ∧ accepted s (encode (.rdhex i)) = !s.busy
    ∧ (s.busy = false → ∀ lt : i.toNat < 64, ∃ n r : Word,
        n = (s.h[i.toNat / 8] >>> (28 - 4 * (i.toNat % 8))) &&& 0xF
        ∧ r.toNat = (if n.toNat ≤ 9 then 0x30 + n.toNat else 0x61 + (n.toNat - 10))
        ∧ exec (.rdhex i) s = .next { s with rsps := s.rsps ++ [r] })
    ∧ (s.busy = false → 64 ≤ i.toNat →
        exec (.rdhex i) s = .next { s with eIll := true, rsps := s.rsps ++ [0] }
        ∧ legal (encode (.rdhex i)) = false)

/-- 20_memory.md R49, which the spec marks as derived from R48: in one idle state the answer of RDWORD k is the
concatenation of the answers of RDBYTE 4k .. 4k+3, each a zero-extended byte, and the answers of RDHEX 2m and 2m+1 are
the characters of the high and the low nibble of the answer of RDBYTE m. -/
def Obligations.ReadsOfAllWidthsAgree : Prop :=
  ∀ s : State, s.busy = false →
    let answers := fun (i : Instr) (r : Word) => exec i s = .next { s with rsps := s.rsps ++ [r] }
    let index := BitVec.ofNat 8
    (∀ k, k < 8 → ∃ (w : Word) (b0 b1 b2 b3 : Byte),
      answers (.rdword (index k)) w
      ∧ answers (.rdbyte (index (4 * k))) (b0.setWidth 32) ∧ answers (.rdbyte (index (4 * k + 1))) (b1.setWidth 32)
      ∧ answers (.rdbyte (index (4 * k + 2))) (b2.setWidth 32) ∧ answers (.rdbyte (index (4 * k + 3))) (b3.setWidth 32)
      ∧ w = b0 ++ b1 ++ b2 ++ b3)
    ∧ ∀ m, m < 32 → ∃ b : Byte,
      answers (.rdbyte (index m)) (b.setWidth 32)
      ∧ answers (.rdhex (index (2 * m))) ((hexchar (b.extractLsb' 4 4)).setWidth 32)
      ∧ answers (.rdhex (index (2 * m + 1))) ((hexchar (b.extractLsb' 0 4)).setWidth 32)

/-- 42_control_readout.md R138, which the spec marks as derived: every character of the digest string is one of `0-9`
and `a-f`, and two digests with the same 64 characters are the same digest. -/
def Obligations.DigestStringIsLowercaseHexAndExact : Prop :=
  (∀ (h : Vector Word 8) (i : Fin 64), (0x30 ≤ (digestChar h i).toNat ∧ (digestChar h i).toNat ≤ 0x39)
      ∨ (0x61 ≤ (digestChar h i).toNat ∧ (digestChar h i).toNat ≤ 0x66))
  ∧ ∀ h h' : Vector Word 8, (∀ i : Fin 64, digestChar h i = digestChar h' i) → h = h'

/-- 20_memory.md R53 (its first two sentences): a legal NOP, RDSTAT or read that is accepted changes nothing but the
responses, and repeated at once it answers the same. -/
def Obligations.ReadsHaveNoEffectAndRepeat : Prop :=
  ∀ (i : Instr) (s : State), i.quiet = true → i.wf = true → accepted s (encode i) = true →
    ∃ r, exec i s = .next { s with rsps := s.rsps ++ [r] }
      ∧ exec i { s with rsps := s.rsps ++ [r] } = .next { s with rsps := s.rsps ++ [r] ++ [r] }

/-- 40_preprocessor.md R89, as a frame of ABSORB and FINAL in every case. They never write `H`, `V` or `W` (nor `K`, `t`
or `e_ill`), nor anything of the world outside but their one response 0. Where they raise no error they write only
`buf`, `bufcnt`, `len`, `fin`, `busy` and `estep`; where they raise one they write none of these, and of `phase` and the
flags only what the error action of 60_exceptions.md R150 writes. FINAL never writes `len`; ABSORB changes no buffer
byte but the one at `bufcnt`. THE MODEL'S CHOICE (log 8): that the meaning, called while `busy = 1`, changes nothing
and answers nothing; the spec holds the word then. -/
def Obligations.PreprocessorWritesOnlyItsOwnState : Prop :=
  (∀ (i : Instr) (s t : State), (i = .final ∨ ∃ b, i = .absorb b) → exec i s = .next t →
    let outOfPhase := s.phase ≠ .absorb
    let overflows := s.phase = .absorb ∧ i ≠ .final ∧ s.len = Config.maxLen
    t.h = s.h ∧ t.v = s.v ∧ t.w = s.w ∧ t.k = s.k ∧ t.t = s.t ∧ t.eIll = s.eIll
    ∧ t.cmds = s.cmds ∧ t.sched = s.sched ∧ t.tick = s.tick
    ∧ (s.busy = true → t = s)
    ∧ (s.busy = false → t.rsps = s.rsps ++ [0])
    ∧ (¬ outOfPhase → ¬ overflows → t.phase = s.phase ∧ t.eSeq = s.eSeq ∧ t.eOvf = s.eOvf)
    ∧ (outOfPhase ∨ overflows →
        t.buf = s.buf ∧ t.bufcnt = s.bufcnt ∧ t.len = s.len ∧ t.fin = s.fin ∧ t.busy = s.busy ∧ t.estep = s.estep)
    ∧ (outOfPhase → t.phase = s.phase ∧ t.eOvf = s.eOvf) ∧ (overflows → t.eSeq = s.eSeq)
    ∧ (i = .final → t.len = s.len))
  ∧ ∀ (b : Byte) (s t : State), exec (.absorb b) s = .next t → ∀ j : Fin 64, j.val ≠ s.bufcnt → t.buf[j] = s.buf[j]

/-- A command that is accepted only when the ENGINE is idle changes nothing while it is busy (70_reset_and_hazards.md
R166; that `exec` then answers the state unchanged is this model's choice, log 8). -/
def Obligations.HeldCommandChangesNothing : Prop :=
  ∀ (i : Instr) (s : State), s.busy = true →
    (accepted s (encode i) = false ↔ i ≠ .nop ∧ i ≠ .rdstat)
    ∧ (accepted s (encode i) = false → exec i s = .next s)

/-! ## Errors -/

/-- 60_exceptions.md R147: ABSORB or FINAL outside phase ABSORB sets `e_seq`, answers 0 and changes nothing else: the
hash state and the phase stay. -/
def Obligations.MessageCommandOutOfPhaseSetsOnlySeq : Prop :=
  ∀ (i : Instr) (s : State), (i = .final ∨ ∃ b, i = .absorb b) → s.busy = false → (s.phase = .done ∨ s.phase = .error) →
    exec i s = .next { s with eSeq := true, rsps := s.rsps ++ [0] }

/-- 60_exceptions.md R148: ABSORB at `len = 2^61 − 1` in phase ABSORB sets `e_ovf` and phase ERROR, answers 0 and
changes nothing else; one byte less and the byte is absorbed. -/
def Obligations.AbsorbAtMaxLenOverflows : Prop :=
  ∀ (b : Byte) (s : State), s.busy = false → s.phase = .absorb →
    (s.len = 2 ^ 61 - 1 →
      exec (.absorb b) s = .next { s with eOvf := true, phase := .error, rsps := s.rsps ++ [0] })
    ∧ (s.len < 2 ^ 61 - 1 → ∃ t, exec (.absorb b) s = .next t ∧ t.len = s.len + 1 ∧ t.phase = .absorb ∧ t.eOvf = s.eOvf)

/-- 60_exceptions.md R149: a word raises at most one error: an illegal word E_ILL, whatever the phase; ABSORB or FINAL
out of phase E_SEQ, whatever the length; else ABSORB at MAXLEN E_OVF. Every other legal word raises none: INIT clears
all flags, and the others leave the flags and the phase as they are. -/
def Obligations.OneErrorPerCommandInPriorityOrder : Prop :=
  ∀ (w : Word) (s t : State), s.busy = false → perform w s = .next t →
    (legal w = false → t.eIll = true ∧ t.eSeq = s.eSeq ∧ t.eOvf = s.eOvf ∧ t.phase = s.phase)
    ∧ (legal w = true → w ≠ 0x10000000 → t.eIll = s.eIll)
    ∧ (legal w = true → (w.extractLsb' 28 4 = 2 ∨ w.extractLsb' 28 4 = 3) → s.phase ≠ .absorb →
        t.eSeq = true ∧ t.eOvf = s.eOvf ∧ t.phase = s.phase)
    ∧ (legal w = true → w.extractLsb' 28 4 = 2 → s.phase = .absorb → s.len = Config.maxLen →
        t.eOvf = true ∧ t.eSeq = s.eSeq ∧ t.phase = .error)
    ∧ (w = 0x10000000 → t.eIll = false ∧ t.eSeq = false ∧ t.eOvf = false ∧ t.phase = .absorb)
    ∧ (legal w = true → w ≠ 0x10000000 →
        ¬((w.extractLsb' 28 4 = 2 ∨ w.extractLsb' 28 4 = 3) ∧ s.phase ≠ .absorb) →
        ¬(w.extractLsb' 28 4 = 2 ∧ s.phase = .absorb ∧ s.len = Config.maxLen) →
        t.eIll = s.eIll ∧ t.eSeq = s.eSeq ∧ t.eOvf = s.eOvf ∧ t.phase = s.phase)

/-- 10_state.md R34: over all steps of the machine, a flag that is set stays set but for INIT and RESET, a flag is
newly set only by its own error (60_exceptions.md R146 to R148), and then the other two are unchanged. -/
def Obligations.ErrorFlagsAreStickyAndSetByTheirErrors : Prop :=
  ∀ (s t : State), step s = .next t → ¬ resetTaken s →
    (∀ e, errFlag e s = true → errFlag e t = true ∨ wordPerformed (encode .init) s t)
    ∧ (∀ e, errFlag e s = false → errFlag e t = true →
        (∀ e', e' ≠ e → errFlag e' t = errFlag e' s)
        ∧ ∃ w, wordPerformed w s t ∧ s.busy = false ∧
          match e with
          | .ill => legal w = false
          | .seq => s.phase ≠ .absorb ∧ (w = encode .final ∨ ∃ b, w = encode (.absorb b))
          | .ovf => s.phase = .absorb ∧ s.len = Config.maxLen ∧ ∃ b, w = encode (.absorb b))

/-- 10_state.md R25 and 60_exceptions.md R151: over all steps of the machine, the phase changes only by INIT or RESET
(to ABSORB), by the last ACCUM of a FINAL (to DONE) and by E_OVF (to ERROR); so phase ERROR is left only by INIT or
RESET. -/
def Obligations.PhaseChangesOnlyAsStated : Prop :=
  ∀ (s t : State), s.Inv → step s = .next t → t.phase ≠ s.phase →
    (t.phase = .absorb ∧ (resetTaken s ∨ wordPerformed (encode .init) s t))
    ∨ (t.phase = .done ∧ s.phase = .absorb ∧ s.busy = true ∧ s.estep = .accum ∧ s.fin = .last)
    ∨ (t.phase = .error ∧ s.phase = .absorb ∧ s.len = Config.maxLen ∧ t.eOvf = true
        ∧ ∃ b, wordPerformed (encode (.absorb b)) s t)

/-- 10_state.md R21, 41_compression.md R116: over all steps of the machine, `H` is written only by INIT and RESET, which
load the IV, and by ACCUM, which adds the working registers. -/
def Obligations.HashStateWrittenOnlyByInitResetAccum : Prop :=
  ∀ (s t : State), step s = .next t →
    t.h = s.h
    ∨ (t.h = iv ∧ (resetTaken s ∨ wordPerformed (encode .init) s t))
    ∨ (s.busy = true ∧ s.estep = .accum ∧ ∀ i : Fin 8, t.h[i] = s.h[i] + s.v[i])

/-- 10_state.md R36: no command, no micro-step and no RESET writes the round constants, which are those of
41_compression.md R106 from reset on. -/
def Obligations.RoundConstantsAreNeverWritten : Prop :=
  State.reset.k = roundConstants ∧ ∀ (s t : State), step s = .next t → t.k = s.k

/-- 60_exceptions.md R153, which the spec marks as derived from R166: no error is raised while `busy = 1`. -/
def Obligations.NoErrorIsRaisedWhileBusy : Prop :=
  ∀ (s t : State), s.busy = true → step s = .next t → ¬ resetTaken s → ∀ e, errFlag e t = errFlag e s

/-! ## The ENGINE -/

/-- 41_compression.md R110: the LOAD micro-step; everything not named is unchanged. -/
def Obligations.LoadCopiesBlockAndHash : Prop :=
  ∀ s : State, s.busy = true → s.estep = .load →
    ∃ w : Vector Word 64,
      engineStep s = { s with w := w, v := s.h, bufcnt := 0, t := 0, estep := .round }
      ∧ (∀ j : Fin 16, w[j.val] = s.buf[4 * j.val] ++ s.buf[4 * j.val + 1] ++ s.buf[4 * j.val + 2] ++ s.buf[4 * j.val + 3])
      ∧ ∀ j : Fin 64, 16 ≤ j.val → w[j] = s.w[j]

/-- 41_compression.md R111 with R107 and R108: the ROUND micro-step of index `t`; everything not named is unchanged. -/
def Obligations.RoundComputesScheduleWordAndRegisters : Prop :=
  ∀ s : State, s.busy = true → s.estep = .round → ∀ lt : s.t < 64,
    ∃ (w : Vector Word 64) (x t1 t2 : Word),
      (s.t < 16 → x = s.w[s.t])
      ∧ (16 ≤ s.t → x = s.w[s.t - 16] + sigma0 s.w[s.t - 15] + s.w[s.t - 7] + sigma1 s.w[s.t - 2])
      ∧ w = s.w.set s.t x
      ∧ t1 = s.v[7] + bigSigma1 s.v[4] + ch s.v[4] s.v[5] s.v[6] + s.k[s.t] + x
      ∧ t2 = bigSigma0 s.v[0] + maj s.v[0] s.v[1] s.v[2]
      ∧ engineStep s = { s with
          w := w
          v := #v[t1 + t2, s.v[0], s.v[1], s.v[2], s.v[3] + t1, s.v[4], s.v[5], s.v[6]]
          t := s.t + 1
          estep := if s.t = 63 then .accum else .round }

/-- 41_compression.md R112, R113 and 40_preprocessor.md R87: the ACCUM micro-step in each of its three cases;
everything not named is unchanged. Only the clause on the length bytes assumes `len ≤ MAXLEN`, which holds in every
reachable state (10_state.md R32, obligation EveryStepKeepsTheInvariant). -/
def Obligations.AccumAddsAndGoesOn : Prop :=
  ∀ s : State, s.busy = true → s.estep = .accum →
    ∃ h : Vector Word 8, (∀ i : Fin 8, h[i] = s.h[i] + s.v[i])
      ∧ (s.fin = .none → engineStep s = { s with h := h, t := 0, busy := false, estep := .idle })
      ∧ (s.fin = .pad2 → ∃ buf : Vector Byte 64,
          engineStep s = { s with h := h, t := 0, buf := buf, bufcnt := 64, fin := .last, estep := .load }
          ∧ (∀ j : Fin 64, j.val < 56 → buf[j] = 0x00)
          ∧ (s.len ≤ Config.maxLen →
              ∀ j : Fin 64, 56 ≤ j.val → buf[j] = BitVec.ofNat 8 (8 * s.len / 256 ^ (63 - j.val))))
      ∧ (s.fin = .last →
          engineStep s = { s with h := h, t := 0, fin := .none, phase := .done, busy := false, estep := .idle })

/-- 41_compression.md R119, which the spec marks as derived: from LOAD the ENGINE performs exactly 66 micro-steps, one
LOAD, 64 ROUNDs and one ACCUM, and 132 when a second padding block follows; then `busy = 0`. -/
def Obligations.BlockTakesSixtySixMicroSteps : Prop :=
  ∀ s : State, s.busy = true → s.estep = .load →
    (∀ n, 1 ≤ n → n ≤ 64 →
      (engineRun n s).busy = true ∧ (engineRun n s).estep = .round ∧ (engineRun n s).t = n - 1)
    ∧ (engineRun 65 s).busy = true ∧ (engineRun 65 s).estep = .accum ∧ (engineRun 65 s).t = 64
    ∧ (s.fin ≠ .pad2 → (engineRun 66 s).busy = false ∧ (engineRun 66 s).estep = .idle)
    ∧ (s.fin = .pad2 →
        (∀ n, n ≤ 131 → (engineRun n s).busy = true) ∧ (engineRun 66 s).estep = .load
        ∧ (engineRun 132 s).busy = false ∧ (engineRun 132 s).estep = .idle)

/-- 41_compression.md R116: from LOAD through the 64 ROUNDs `H` is not written; it changes in ACCUM, once per block. -/
def Obligations.HashStateIsNotWrittenDuringTheRounds : Prop :=
  ∀ s : State, s.busy = true → s.estep = .load →
    (∀ n, n ≤ 65 → (engineRun n s).h = s.h)
    ∧ ∀ i : Fin 8, (engineRun 66 s).h[i] = s.h[i] + (engineRun 65 s).v[i]

/-- 41_compression.md R107: `schedule(M)` meets the recurrence of the rule, at every index. -/
def Obligations.ScheduleMeetsItsRecurrence : Prop :=
  ∀ m : Vector Word 16,
    (∀ t : Fin 16, (schedule m)[t.val] = m[t])
    ∧ ∀ t : Fin 64, 16 ≤ t.val →
        (schedule m)[t] = (schedule m)[t.val - 16] + sigma0 (schedule m)[t.val - 15] + (schedule m)[t.val - 7]
          + sigma1 (schedule m)[t.val - 2]

/-- 41_compression.md R111 and R114, which the spec marks as derived from R110 to R112: the micro-steps of one block
compute the schedule of R107 and change `H` to `compress(H, M)`, where `M` is the block LOAD read. -/
def Obligations.BlockMicroStepsCompress : Prop :=
  ∀ s : State, s.busy = true → s.estep = .load →
    (engineRun 65 s).w = schedule (blockWords s.buf)
    ∧ (engineRun 66 s).h = compress s.k s.h (blockWords s.buf)

/-- 41_compression.md R104, R105: each bit of `e` chooses `f` or `g`; each bit of Maj is the majority of the three. -/
def Obligations.ChChoosesAndMajTakesTheMajority : Prop :=
  (∀ (e f g : Word) (i : Fin 32), (ch e f g)[i] = if e[i] then f[i] else g[i])
  ∧ ∀ (x y z : Word) (i : Fin 32), (maj x y z)[i] = decide (2 ≤ x[i].toNat + y[i].toNat + z[i].toNat)

/-- 41_compression.md R100 to R103, with 00_scope.md R10: bit by bit, what each of the four functions mixes. -/
def Obligations.SigmaFunctionsMixTheStatedBits : Prop :=
  ∀ (x : Word) (i : Nat), i < 32 →
    let bit := fun n => x.getLsbD ((i + n) % 32)
    let low := fun n => x.getLsbD (i + n)
    (sigma0 x).getLsbD i = ((bit 7 ^^ bit 18) ^^ low 3)
    ∧ (sigma1 x).getLsbD i = ((bit 17 ^^ bit 19) ^^ low 10)
    ∧ (bigSigma0 x).getLsbD i = ((bit 2 ^^ bit 13) ^^ bit 22)
    ∧ (bigSigma1 x).getLsbD i = ((bit 6 ^^ bit 11) ^^ bit 25)

/-! ## Invariants -/

/-- Every step of the machine, from any state that meets the invariant, whoever moves, gives a state that meets it. -/
def Obligations.EveryStepKeepsTheInvariant : Prop :=
  ∀ s t : State, s.Inv → step s = .next t → t.Inv

/-- The invariant holds after RESET, whatever the HOST will present and whichever moves are chosen. -/
def Obligations.InvariantHoldsAfterReset : Prop :=
  ∀ cmds sched tick, (resetWith cmds sched tick).Inv

/-- 10_state.md R38, which the spec marks as derived: clauses (a) to (g) and the widths of R20 hold in every reachable
state. -/
def Obligations.ReachableStatesMeetR38 : Prop :=
  ∀ s : State, Reachable s → s.R38 ∧ s.widths

/-- 70_reset_and_hazards.md R166, R119 (derived there): from every state that meets the invariant, a held word is
accepted within 132 steps, by the ENGINE alone: it stays presented and no response is given before. -/
def Obligations.HeldWordIsAcceptedWithin132Steps : Prop :=
  ∀ (s : State) (w : Word) (ws : List Word), s.Inv → s.cmds = w :: ws → accepted s w = false → noReset s.sched →
    ∃ n t, n ≤ 132 ∧ Sys2Proof.core.run n s = .next t ∧ accepted t w = true
      ∧ t.cmds = w :: ws ∧ t.rsps = s.rsps ∧ t = { engineRun n s with sched := s.sched.drop n }

/-! ## The message and its digest -/

/-- 40_preprocessor.md R80 (with R81): the padded stream is the message's bits, a 1 bit, the fewest zero bits that
reach 448 mod 512, and the 64-bit big-endian bit length; its length is a multiple of 512. -/
def Obligations.PaddedStreamIsTheFourSteps : Prop :=
  ∀ m : List Byte, m.length ≤ Config.maxLen →
    ∃ k : Nat,
      (8 * m.length + 1 + k) % 512 = 448 ∧ (∀ j, j < k → (8 * m.length + 1 + j) % 512 ≠ 448)
      ∧ k % 8 = 7
      ∧ (∃ l : List Bool, padBits m = m.flatMap byteBits ++ [true] ++ List.replicate k false ++ l ∧ l.length = 64
          ∧ ∀ i, i < 64 → l[i]? = some ((8 * m.length).testBit (63 - i)))
      ∧ (padBits m).length = 512 * blockCount m.length

/-- 40_preprocessor.md R82, which the spec marks as derived: the byte form of the padding is the padded stream, and the
blocks are its bytes, 64 by 64. THE MODEL'S CHOICE (log 16): what both forms are for a message longer than MAXLEN, for
which R80 defines no padding. -/
def Obligations.PaddingInBytesIsPaddingInBits : Prop :=
  ∀ m : List Byte,
    padBits m = (pad m).flatMap byteBits
    ∧ (padBlocks m).flatMap Vector.toList = pad m

/-- 40_preprocessor.md R83 and R84: the empty message pads to one block, `0x80` and 63 zero bytes; 55 bytes pad to one
block and 56 to two, and in general a block more is needed exactly where `L mod 64 = 56`. -/
def Obligations.PaddingBoundaries : Prop :=
  pad [] = 0x80 :: List.replicate 63 0x00
  ∧ blockCount 0 = 1 ∧ blockCount 55 = 1 ∧ blockCount 56 = 2
  ∧ ∀ len, 1 ≤ len → (blockCount len = blockCount (len - 1) + 1 ↔ len % 64 = 56)

/-- 40_preprocessor.md R88, which the spec marks as derived: presented a message, with any legal quiet commands between
and whatever the interleaving, the LOAD micro-steps read in order exactly the blocks of the padded message, each once,
and after the last ACCUM the phase is DONE and no command is left. -/
def Obligations.LoadsReadThePaddedMessage : Prop :=
  ∀ (m : List Byte) (s : State), presentsMessage m s →
    ∃ n t, Sys2Proof.core.run n s = .next t ∧ t.runEnded = true ∧ t.phase = .done
      ∧ loadedBlocks n s = padBlocks m

/-- 41_compression.md R115, which the spec marks as derived: after that command sequence `H` is the hash of the
message, the phase is DONE, the length is the message's and no error flag is set. -/
def Obligations.MessageIsHashed : Prop :=
  ∀ (m : List Byte) (s : State), presentsMessage m s →
    ∃ n t, Sys2Proof.core.run n s = .next t ∧ t.runEnded = true ∧ t.phase = .done ∧ t.h = hashOf m
      ∧ t.len = m.length ∧ t.eOvf = false ∧ t.eIll = false ∧ t.eSeq = false

/-- The source's public operation, text in and 64 characters out (41_compression.md R115, 42_control_readout.md R138,
70_reset_and_hazards.md R167, derived there; 30_encoding.md R75): from any idle state, HASH and then RDDIGESTHEX,
presented at once and without polling, whatever the interleaving: INIT, the ABSORBs and FINAL answer 0 and the 64
reads answer the characters of the digest, in order. -/
def Obligations.HashThenReadAnswersTheDigestString : Prop :=
  ∀ (m : List Byte) (s : State), m.length ≤ Config.maxLen → s.Inv → s.busy = false → noReset s.sched →
    s.cmds = (AsmItem.hash m).words 0 ++ AsmItem.rdDigestHex.words 0 →
    ∃ n t, Sys2Proof.core.run n s = .next t ∧ t.runEnded = true ∧ t.phase = .done
      ∧ t.rsps = s.rsps ++ List.replicate (m.length + 2) 0
          ++ List.ofFn (fun i : Fin 64 => (digestChar (hashOf m) i).setWidth 32)

/-- 70_reset_and_hazards.md R172, which the spec marks as derived: from an idle state, however HOST and ENGINE
interleave, a run without RESET that has ended has left the block as the atomic form leaves it, with the same responses
but for those of RDSTAT. -/
def Obligations.TwoAgentRunsAgreeWithTheAtomicForm : Prop :=
  ∀ (s t : State) (n : Nat), s.Inv → s.busy = false → noReset s.sched →
    Sys2Proof.core.run n s = .next t → t.runEnded = true →
      t.block = (atomicRun s.cmds s).block
      ∧ t.rsps.length = (atomicRun s.cmds s).rsps.length
      ∧ ∀ j : Nat, s.cmds[j]? ≠ some 0x40000000 →
          t.rsps[s.rsps.length + j]? = (atomicRun s.cmds s).rsps[s.rsps.length + j]?

/-! ## Several cores, ports -/

/-- 10_state.md R35, 60_exceptions.md R157: a step of one core changes no other core, and is that core's own step. -/
def Obligations.CoresDoNotInteract : Prop :=
  ∀ (n : Nat) (p : Platform n) (i : Fin n),
    ∃ q, p.stepCore i = .next q ∧ step p.cores[i] = .next q.cores[i] ∧ ∀ j : Fin n, j ≠ i → q.cores[j] = p.cores[j]

/-- 10_state.md R37, 30_encoding.md R73: the level outputs are the BUSY, PHASE and error fields of STATUS, and
`cmd_ready` is acceptance. -/
def Obligations.OutputsFollowStatus : Prop :=
  ∀ s : State,
    (busyO s = true ↔ (status s).getLsbD 0 = true)
    ∧ (doneO s = true ↔ (status s).extractLsb' 1 2 = 1#2)
    ∧ (errO s = true ↔
        (status s).extractLsb' 1 2 = 2#2 ∨ (status s).getLsbD 5 = true ∨ (status s).getLsbD 6 = true)
    ∧ (hostEnabled s = true ↔ ∃ w, cmdData s = some w ∧ cmdReady s w = true)

/-- 30_encoding.md R73, 00_scope.md R13: under a clock, whatever the inputs and the cycles of a micro-step, one rising
edge is these steps of the machine, at most two, in this order: RESET alone where `rst` is 1; else the HOST's, where
`cmd_valid` and `cmd_ready` are both 1, with the word presented; and then the ENGINE's, where its micro-step is due. The
block after the edge is the one those steps leave, they perform the presented word, and they give exactly the response
that the edge sends on its way. A micro-step is due where it is enabled and has taken its cycles. THE MODEL'S CHOICE
(log 13): the order within an edge, that RESET wins, and when a micro-step is due. -/
def Obligations.ClockEdgeIsAtMostTwoSteps : Prop :=
  ∀ (perStep : Nat) (c : Clocked) (i : PortInputs),
    let moves : List Move :=
      if i.rst then [.reset false]
      else (if c.accepts i then [.host] else []) ++ (if c.stepDue perStep then [.engine] else [])
    let words : List Word := if c.accepts i then [i.cmdData] else []
    (c.accepts i = true ↔ i.rst = false ∧ i.cmdValid = true ∧ accepted c.block i.cmdData = true)
    ∧ (c.stepDue perStep = true ↔ engineEnabled c.block = true ∧ perStep ≤ c.waited + 1)
    ∧ moves.length ≤ 2
    ∧ ∃ t, Sys2Proof.core.run moves.length { c.block with cmds := words, sched := moves } = .next t
        ∧ t.cmds = [] ∧ t.sched = [] ∧ t.rsps = c.block.rsps ++ (c.answer i).toList
        ∧ (c.edge perStep i).block.block = t.block

/-- 30_encoding.md R73: under a clock, the response to a command accepted in cycle `n` is on the response port in cycle
`n + RSP_LATENCY` and in no other, whatever the HOST does in between (the queue that does so is this model's, log 13). -/
def Obligations.ResponseComesAfterTheLatency : Prop :=
  ∀ (perStep latency : Nat) (is : List PortInputs) (c : Clocked), c.pipe = List.replicate latency none →
    (∀ n, n + latency < is.length →
      ((Clocked.run perStep is c).map PortOutputs.rsp)[n + latency]? = (Clocked.answers perStep is c)[n]?)
    ∧ ∀ n, n < latency → n < is.length → ((Clocked.run perStep is c).map PortOutputs.rsp)[n]? = some none
end

