-- ==== Sys2Proof/Laws/Decode.lean ====
section
/-! SUPPORT. The three fields of a command word, and masking a word field by field. -/

namespace Sys2Proof

@[simp] theorem opOf_packFields (op : BitVec 4) (rsv : BitVec 20) (opd : Byte) :
    opOf (packFields op rsv opd) = op := by
  ext i hi; simp [opOf, packFields]; grind

@[simp] theorem rsvOf_packFields (op : BitVec 4) (rsv : BitVec 20) (opd : Byte) :
    rsvOf (packFields op rsv opd) = rsv := by
  ext i hi; simp [rsvOf, packFields]; grind

@[simp] theorem opdOf_packFields (op : BitVec 4) (rsv : BitVec 20) (opd : Byte) :
    opdOf (packFields op rsv opd) = opd := by
  ext i hi; simp [opdOf, packFields]; grind

/-- A word is its three fields (30_encoding.md R64). -/
theorem packFields_fields (w : Word) : packFields (opOf w) (rsvOf w) (opdOf w) = w := by
  apply BitVec.eq_of_getLsbD_eq
  intro i hi
  simp only [packFields, opOf, rsvOf, opdOf, BitVec.getLsbD_cast, BitVec.getLsbD_append, BitVec.getLsbD_extractLsb']
  grind

/-- Two words are equal where their fields are. -/
theorem packFields_inj {op op' : BitVec 4} {rsv rsv' : BitVec 20} {opd opd' : Byte} :
    packFields op rsv opd = packFields op' rsv' opd' ↔ op = op' ∧ rsv = rsv' ∧ opd = opd' := by
  constructor
  · intro h
    exact ⟨by simpa using congrArg opOf h, by simpa using congrArg rsvOf h, by simpa using congrArg opdOf h⟩
  · rintro ⟨rfl, rfl, rfl⟩; rfl

/-- Masking is field by field. -/
theorem packFields_and (op op' : BitVec 4) (rsv rsv' : BitVec 20) (opd opd' : Byte) :
    packFields op rsv opd &&& packFields op' rsv' opd'
      = packFields (op &&& op') (rsv &&& rsv') (opd &&& opd') := by
  apply BitVec.eq_of_getLsbD_eq
  intro i hi
  simp only [packFields, BitVec.getLsbD_and, BitVec.getLsbD_cast, BitVec.getLsbD_append]
  grind

/-- A word masked in its operand field only: the match fixes the other two fields. -/
theorem packFields_and_mask (op op' : BitVec 4) (rsv : BitVec 20) (opd mask : Byte) :
    packFields op rsv opd &&& packFields 0xF 0xFFFFF mask = packFields op' 0 0
      ↔ op = op' ∧ rsv = 0 ∧ opd &&& mask = 0 := by
  have h4 : op &&& 0xF = op := by simpa using BitVec.and_allOnes (x := op)
  have h20 : rsv &&& 0xFFFFF = rsv := by simpa using BitVec.and_allOnes (x := rsv)
  rw [packFields_and, packFields_inj, h4, h20]

/-- The operand range of RDWORD as a mask (30_encoding.md R66). -/
theorem and_F8_eq_zero : ∀ b : Byte, b &&& 0xF8 = 0 ↔ b.toNat < 8 := by decide

/-- The operand range of RDBYTE as a mask (30_encoding.md R66). -/
theorem and_E0_eq_zero : ∀ b : Byte, b &&& 0xE0 = 0 ↔ b.toNat < 32 := by decide

/-- The operand range of RDHEX as a mask (30_encoding.md R66). -/
theorem and_C0_eq_zero : ∀ b : Byte, b &&& 0xC0 = 0 ↔ b.toNat < 64 := by decide

/-- `legal` (30_encoding.md R69) by fields. -/
theorem legal_packFields (op : BitVec 4) (rsv : BitVec 20) (opd : Byte) :
    legal (packFields op rsv opd) = true ↔
      rsv = 0 ∧ ((op = 0 ∧ opd = 0) ∨ (op = 1 ∧ opd = 0) ∨ op = 2 ∨ (op = 3 ∧ opd = 0) ∨ (op = 4 ∧ opd = 0)
        ∨ (op = 5 ∧ opd.toNat < 8) ∨ (op = 6 ∧ opd.toNat < 32) ∨ (op = 7 ∧ opd.toNat < 64)) := by
  have e0 : (0x00000000 : Word) = packFields 0 0 0 := by decide
  have e1 : (0x10000000 : Word) = packFields 1 0 0 := by decide
  have e2 : (0x20000000 : Word) = packFields 2 0 0 := by decide
  have e3 : (0x30000000 : Word) = packFields 3 0 0 := by decide
  have e4 : (0x40000000 : Word) = packFields 4 0 0 := by decide
  have e5 : (0x50000000 : Word) = packFields 5 0 0 := by decide
  have e6 : (0x60000000 : Word) = packFields 6 0 0 := by decide
  have e7 : (0x70000000 : Word) = packFields 7 0 0 := by decide
  have m2 : (0xFFFFFF00 : Word) = packFields 0xF 0xFFFFF 0x00 := by decide
  have m5 : (0xFFFFFFF8 : Word) = packFields 0xF 0xFFFFF 0xF8 := by decide
  have m6 : (0xFFFFFFE0 : Word) = packFields 0xF 0xFFFFF 0xE0 := by decide
  have m7 : (0xFFFFFFC0 : Word) = packFields 0xF 0xFFFFF 0xC0 := by decide
  have z : opd &&& 0x00 = 0 := BitVec.and_zero
  simp only [legal, Bool.or_eq_true, beq_iff_eq, e0, e1, e2, e3, e4, e5, e6, e7, m2, m5, m6, m7,
    packFields_and_mask, packFields_inj, and_F8_eq_zero, and_E0_eq_zero, and_C0_eq_zero, z]
  clear e0 e1 e2 e3 e4 e5 e6 e7 m2 m5 m6 m7 z
  constructor
  · rintro (((((((⟨h, r, d⟩ | ⟨h, r, d⟩) | ⟨h, r, d⟩) | ⟨h, r, d⟩) | ⟨h, r, d⟩) | ⟨h, r, d⟩) | ⟨h, r, d⟩) | ⟨h, r, d⟩) <;>
      simp [h, r, d]
  · rintro ⟨r, h | h | h | h | h | h | h | h⟩ <;> simp [r, h]

end Sys2Proof
end

