-- ==== Sys2Proof/Laws/State.lean ====
section
/-! SUPPORT. What each named update does to each field of the state, one lemma per field per update. -/

namespace Sys2Proof.Machine

/-! `respond`: only the responses change. -/

@[simp] theorem respond_h (r : Word) (s : State) : (respond r s).h = s.h := rfl
@[simp] theorem respond_v (r : Word) (s : State) : (respond r s).v = s.v := rfl
@[simp] theorem respond_w (r : Word) (s : State) : (respond r s).w = s.w := rfl
@[simp] theorem respond_k (r : Word) (s : State) : (respond r s).k = s.k := rfl
@[simp] theorem respond_buf (r : Word) (s : State) : (respond r s).buf = s.buf := rfl
@[simp] theorem respond_bufcnt (r : Word) (s : State) : (respond r s).bufcnt = s.bufcnt := rfl
@[simp] theorem respond_len (r : Word) (s : State) : (respond r s).len = s.len := rfl
@[simp] theorem respond_phase (r : Word) (s : State) : (respond r s).phase = s.phase := rfl
@[simp] theorem respond_busy (r : Word) (s : State) : (respond r s).busy = s.busy := rfl
@[simp] theorem respond_estep (r : Word) (s : State) : (respond r s).estep = s.estep := rfl
@[simp] theorem respond_t (r : Word) (s : State) : (respond r s).t = s.t := rfl
@[simp] theorem respond_fin (r : Word) (s : State) : (respond r s).fin = s.fin := rfl
@[simp] theorem respond_eOvf (r : Word) (s : State) : (respond r s).eOvf = s.eOvf := rfl
@[simp] theorem respond_eIll (r : Word) (s : State) : (respond r s).eIll = s.eIll := rfl
@[simp] theorem respond_eSeq (r : Word) (s : State) : (respond r s).eSeq = s.eSeq := rfl
@[simp] theorem respond_cmds (r : Word) (s : State) : (respond r s).cmds = s.cmds := rfl
@[simp] theorem respond_rsps (r : Word) (s : State) : (respond r s).rsps = s.rsps ++ [r] := rfl
@[simp] theorem respond_sched (r : Word) (s : State) : (respond r s).sched = s.sched := rfl
@[simp] theorem respond_tick (r : Word) (s : State) : (respond r s).tick = s.tick := rfl

/-! `setError`: the flag of the error, and for E_OVF the phase. -/

@[simp] theorem setError_h (e : Err) (s : State) : (setError e s).h = s.h := by cases e <;> rfl
@[simp] theorem setError_v (e : Err) (s : State) : (setError e s).v = s.v := by cases e <;> rfl
@[simp] theorem setError_w (e : Err) (s : State) : (setError e s).w = s.w := by cases e <;> rfl
@[simp] theorem setError_k (e : Err) (s : State) : (setError e s).k = s.k := by cases e <;> rfl
@[simp] theorem setError_buf (e : Err) (s : State) : (setError e s).buf = s.buf := by cases e <;> rfl
@[simp] theorem setError_bufcnt (e : Err) (s : State) : (setError e s).bufcnt = s.bufcnt := by cases e <;> rfl
@[simp] theorem setError_len (e : Err) (s : State) : (setError e s).len = s.len := by cases e <;> rfl
@[simp] theorem setError_busy (e : Err) (s : State) : (setError e s).busy = s.busy := by cases e <;> rfl
@[simp] theorem setError_estep (e : Err) (s : State) : (setError e s).estep = s.estep := by cases e <;> rfl
@[simp] theorem setError_t (e : Err) (s : State) : (setError e s).t = s.t := by cases e <;> rfl
@[simp] theorem setError_fin (e : Err) (s : State) : (setError e s).fin = s.fin := by cases e <;> rfl
@[simp] theorem setError_cmds (e : Err) (s : State) : (setError e s).cmds = s.cmds := by cases e <;> rfl
@[simp] theorem setError_rsps (e : Err) (s : State) : (setError e s).rsps = s.rsps := by cases e <;> rfl
@[simp] theorem setError_sched (e : Err) (s : State) : (setError e s).sched = s.sched := by cases e <;> rfl
@[simp] theorem setError_tick (e : Err) (s : State) : (setError e s).tick = s.tick := by cases e <;> rfl
@[simp] theorem setError_eOvf (e : Err) (s : State) : (setError e s).eOvf = (decide (e = .ovf) || s.eOvf) := by cases e <;> rfl
@[simp] theorem setError_eIll (e : Err) (s : State) : (setError e s).eIll = (decide (e = .ill) || s.eIll) := by cases e <;> rfl
@[simp] theorem setError_eSeq (e : Err) (s : State) : (setError e s).eSeq = (decide (e = .seq) || s.eSeq) := by cases e <;> rfl
@[simp] theorem setError_phase (e : Err) (s : State) : (setError e s).phase = if e = .ovf then .error else s.phase := by cases e <;> rfl

/-! `raise`: `setError`, and the response 0. -/

@[simp] theorem raise_h (e : Err) (s : State) : (raise e s).h = s.h := by simp [raise]
@[simp] theorem raise_v (e : Err) (s : State) : (raise e s).v = s.v := by simp [raise]
@[simp] theorem raise_w (e : Err) (s : State) : (raise e s).w = s.w := by simp [raise]
@[simp] theorem raise_k (e : Err) (s : State) : (raise e s).k = s.k := by simp [raise]
@[simp] theorem raise_buf (e : Err) (s : State) : (raise e s).buf = s.buf := by simp [raise]
@[simp] theorem raise_bufcnt (e : Err) (s : State) : (raise e s).bufcnt = s.bufcnt := by simp [raise]
@[simp] theorem raise_len (e : Err) (s : State) : (raise e s).len = s.len := by simp [raise]
@[simp] theorem raise_busy (e : Err) (s : State) : (raise e s).busy = s.busy := by simp [raise]
@[simp] theorem raise_estep (e : Err) (s : State) : (raise e s).estep = s.estep := by simp [raise]
@[simp] theorem raise_t (e : Err) (s : State) : (raise e s).t = s.t := by simp [raise]
@[simp] theorem raise_fin (e : Err) (s : State) : (raise e s).fin = s.fin := by simp [raise]
@[simp] theorem raise_cmds (e : Err) (s : State) : (raise e s).cmds = s.cmds := by simp [raise]
@[simp] theorem raise_sched (e : Err) (s : State) : (raise e s).sched = s.sched := by simp [raise]
@[simp] theorem raise_tick (e : Err) (s : State) : (raise e s).tick = s.tick := by simp [raise]
@[simp] theorem raise_eOvf (e : Err) (s : State) : (raise e s).eOvf = (decide (e = .ovf) || s.eOvf) := by simp [raise]
@[simp] theorem raise_eIll (e : Err) (s : State) : (raise e s).eIll = (decide (e = .ill) || s.eIll) := by simp [raise]
@[simp] theorem raise_eSeq (e : Err) (s : State) : (raise e s).eSeq = (decide (e = .seq) || s.eSeq) := by simp [raise]
@[simp] theorem raise_phase (e : Err) (s : State) : (raise e s).phase = if e = .ovf then .error else s.phase := by simp [raise]
@[simp] theorem raise_rsps (e : Err) (s : State) : (raise e s).rsps = s.rsps ++ [0] := by simp [raise]

/-! `startMessage`: every element of the block at its reset value. -/

@[simp] theorem startMessage_h (s : State) : (startMessage s).h = iv := rfl
@[simp] theorem startMessage_v (s : State) : (startMessage s).v = Vector.replicate 8 0 := rfl
@[simp] theorem startMessage_w (s : State) : (startMessage s).w = Vector.replicate 64 0 := rfl
@[simp] theorem startMessage_k (s : State) : (startMessage s).k = s.k := rfl
@[simp] theorem startMessage_buf (s : State) : (startMessage s).buf = Vector.replicate 64 0 := rfl
@[simp] theorem startMessage_bufcnt (s : State) : (startMessage s).bufcnt = 0 := rfl
@[simp] theorem startMessage_len (s : State) : (startMessage s).len = 0 := rfl
@[simp] theorem startMessage_phase (s : State) : (startMessage s).phase = .absorb := rfl
@[simp] theorem startMessage_busy (s : State) : (startMessage s).busy = false := rfl
@[simp] theorem startMessage_estep (s : State) : (startMessage s).estep = .idle := rfl
@[simp] theorem startMessage_t (s : State) : (startMessage s).t = 0 := rfl
@[simp] theorem startMessage_fin (s : State) : (startMessage s).fin = .none := rfl
@[simp] theorem startMessage_eOvf (s : State) : (startMessage s).eOvf = false := rfl
@[simp] theorem startMessage_eIll (s : State) : (startMessage s).eIll = false := rfl
@[simp] theorem startMessage_eSeq (s : State) : (startMessage s).eSeq = false := rfl
@[simp] theorem startMessage_cmds (s : State) : (startMessage s).cmds = s.cmds := rfl
@[simp] theorem startMessage_rsps (s : State) : (startMessage s).rsps = s.rsps := rfl
@[simp] theorem startMessage_sched (s : State) : (startMessage s).sched = s.sched := rfl
@[simp] theorem startMessage_tick (s : State) : (startMessage s).tick = s.tick := rfl

/-! `resetCore`: RESET. -/

@[simp] theorem resetCore_h (again : Bool) (s : State) : (resetCore again s).h = iv := rfl
@[simp] theorem resetCore_v (again : Bool) (s : State) : (resetCore again s).v = Vector.replicate 8 0 := rfl
@[simp] theorem resetCore_w (again : Bool) (s : State) : (resetCore again s).w = Vector.replicate 64 0 := rfl
@[simp] theorem resetCore_k (again : Bool) (s : State) : (resetCore again s).k = s.k := rfl
@[simp] theorem resetCore_buf (again : Bool) (s : State) : (resetCore again s).buf = Vector.replicate 64 0 := rfl
@[simp] theorem resetCore_bufcnt (again : Bool) (s : State) : (resetCore again s).bufcnt = 0 := rfl
@[simp] theorem resetCore_len (again : Bool) (s : State) : (resetCore again s).len = 0 := rfl
@[simp] theorem resetCore_phase (again : Bool) (s : State) : (resetCore again s).phase = .absorb := rfl
@[simp] theorem resetCore_busy (again : Bool) (s : State) : (resetCore again s).busy = false := rfl
@[simp] theorem resetCore_estep (again : Bool) (s : State) : (resetCore again s).estep = .idle := rfl
@[simp] theorem resetCore_t (again : Bool) (s : State) : (resetCore again s).t = 0 := rfl
@[simp] theorem resetCore_fin (again : Bool) (s : State) : (resetCore again s).fin = .none := rfl
@[simp] theorem resetCore_eOvf (again : Bool) (s : State) : (resetCore again s).eOvf = false := rfl
@[simp] theorem resetCore_eIll (again : Bool) (s : State) : (resetCore again s).eIll = false := rfl
@[simp] theorem resetCore_eSeq (again : Bool) (s : State) : (resetCore again s).eSeq = false := rfl
@[simp] theorem resetCore_cmds (again : Bool) (s : State) : (resetCore again s).cmds = if again then s.cmds else s.cmds.tail := rfl
@[simp] theorem resetCore_rsps (again : Bool) (s : State) : (resetCore again s).rsps = s.rsps := rfl
@[simp] theorem resetCore_sched (again : Bool) (s : State) : (resetCore again s).sched = s.sched := rfl
@[simp] theorem resetCore_tick (again : Bool) (s : State) : (resetCore again s).tick = s.tick := rfl

/-! `startEngine`. -/

@[simp] theorem startEngine_h (s : State) : (startEngine s).h = s.h := rfl
@[simp] theorem startEngine_v (s : State) : (startEngine s).v = s.v := rfl
@[simp] theorem startEngine_w (s : State) : (startEngine s).w = s.w := rfl
@[simp] theorem startEngine_k (s : State) : (startEngine s).k = s.k := rfl
@[simp] theorem startEngine_buf (s : State) : (startEngine s).buf = s.buf := rfl
@[simp] theorem startEngine_bufcnt (s : State) : (startEngine s).bufcnt = s.bufcnt := rfl
@[simp] theorem startEngine_len (s : State) : (startEngine s).len = s.len := rfl
@[simp] theorem startEngine_phase (s : State) : (startEngine s).phase = s.phase := rfl
@[simp] theorem startEngine_busy (s : State) : (startEngine s).busy = true := rfl
@[simp] theorem startEngine_estep (s : State) : (startEngine s).estep = .load := rfl
@[simp] theorem startEngine_t (s : State) : (startEngine s).t = s.t := rfl
@[simp] theorem startEngine_fin (s : State) : (startEngine s).fin = s.fin := rfl
@[simp] theorem startEngine_eOvf (s : State) : (startEngine s).eOvf = s.eOvf := rfl
@[simp] theorem startEngine_eIll (s : State) : (startEngine s).eIll = s.eIll := rfl
@[simp] theorem startEngine_eSeq (s : State) : (startEngine s).eSeq = s.eSeq := rfl
@[simp] theorem startEngine_cmds (s : State) : (startEngine s).cmds = s.cmds := rfl
@[simp] theorem startEngine_rsps (s : State) : (startEngine s).rsps = s.rsps := rfl
@[simp] theorem startEngine_sched (s : State) : (startEngine s).sched = s.sched := rfl
@[simp] theorem startEngine_tick (s : State) : (startEngine s).tick = s.tick := rfl

/-! `appendByte`. -/

@[simp] theorem appendByte_h (b : Byte) (s : State) : (appendByte b s).h = s.h := rfl
@[simp] theorem appendByte_v (b : Byte) (s : State) : (appendByte b s).v = s.v := rfl
@[simp] theorem appendByte_w (b : Byte) (s : State) : (appendByte b s).w = s.w := rfl
@[simp] theorem appendByte_k (b : Byte) (s : State) : (appendByte b s).k = s.k := rfl
@[simp] theorem appendByte_buf (b : Byte) (s : State) : (appendByte b s).buf = s.buf.setIfInBounds s.bufcnt b := rfl
@[simp] theorem appendByte_bufcnt (b : Byte) (s : State) : (appendByte b s).bufcnt = s.bufcnt + 1 := rfl
@[simp] theorem appendByte_len (b : Byte) (s : State) : (appendByte b s).len = s.len + 1 := rfl
@[simp] theorem appendByte_phase (b : Byte) (s : State) : (appendByte b s).phase = s.phase := rfl
@[simp] theorem appendByte_busy (b : Byte) (s : State) : (appendByte b s).busy = s.busy := rfl
@[simp] theorem appendByte_estep (b : Byte) (s : State) : (appendByte b s).estep = s.estep := rfl
@[simp] theorem appendByte_t (b : Byte) (s : State) : (appendByte b s).t = s.t := rfl
@[simp] theorem appendByte_fin (b : Byte) (s : State) : (appendByte b s).fin = s.fin := rfl
@[simp] theorem appendByte_eOvf (b : Byte) (s : State) : (appendByte b s).eOvf = s.eOvf := rfl
@[simp] theorem appendByte_eIll (b : Byte) (s : State) : (appendByte b s).eIll = s.eIll := rfl
@[simp] theorem appendByte_eSeq (b : Byte) (s : State) : (appendByte b s).eSeq = s.eSeq := rfl
@[simp] theorem appendByte_cmds (b : Byte) (s : State) : (appendByte b s).cmds = s.cmds := rfl
@[simp] theorem appendByte_rsps (b : Byte) (s : State) : (appendByte b s).rsps = s.rsps := rfl
@[simp] theorem appendByte_sched (b : Byte) (s : State) : (appendByte b s).sched = s.sched := rfl
@[simp] theorem appendByte_tick (b : Byte) (s : State) : (appendByte b s).tick = s.tick := rfl

/-! `loadStep`. -/

@[simp] theorem loadStep_h (s : State) : (loadStep s).h = s.h := rfl
@[simp] theorem loadStep_v (s : State) : (loadStep s).v = s.h := rfl
@[simp] theorem loadStep_w (s : State) : (loadStep s).w = loadedSchedule s.buf s.w := rfl
@[simp] theorem loadStep_k (s : State) : (loadStep s).k = s.k := rfl
@[simp] theorem loadStep_buf (s : State) : (loadStep s).buf = s.buf := rfl
@[simp] theorem loadStep_bufcnt (s : State) : (loadStep s).bufcnt = 0 := rfl
@[simp] theorem loadStep_len (s : State) : (loadStep s).len = s.len := rfl
@[simp] theorem loadStep_phase (s : State) : (loadStep s).phase = s.phase := rfl
@[simp] theorem loadStep_busy (s : State) : (loadStep s).busy = s.busy := rfl
@[simp] theorem loadStep_estep (s : State) : (loadStep s).estep = .round := rfl
@[simp] theorem loadStep_t (s : State) : (loadStep s).t = 0 := rfl
@[simp] theorem loadStep_fin (s : State) : (loadStep s).fin = s.fin := rfl
@[simp] theorem loadStep_eOvf (s : State) : (loadStep s).eOvf = s.eOvf := rfl
@[simp] theorem loadStep_eIll (s : State) : (loadStep s).eIll = s.eIll := rfl
@[simp] theorem loadStep_eSeq (s : State) : (loadStep s).eSeq = s.eSeq := rfl
@[simp] theorem loadStep_cmds (s : State) : (loadStep s).cmds = s.cmds := rfl
@[simp] theorem loadStep_rsps (s : State) : (loadStep s).rsps = s.rsps := rfl
@[simp] theorem loadStep_sched (s : State) : (loadStep s).sched = s.sched := rfl
@[simp] theorem loadStep_tick (s : State) : (loadStep s).tick = s.tick := rfl

/-! `roundStep`. -/

@[simp] theorem roundStep_h (n : Fin 64) (s : State) : (roundStep n s).h = s.h := rfl
@[simp] theorem roundStep_v (n : Fin 64) (s : State) : (roundStep n s).v = roundFn s.v s.k[n] (scheduleFor s.w n)[n] := rfl
@[simp] theorem roundStep_w (n : Fin 64) (s : State) : (roundStep n s).w = scheduleFor s.w n := rfl
@[simp] theorem roundStep_k (n : Fin 64) (s : State) : (roundStep n s).k = s.k := rfl
@[simp] theorem roundStep_buf (n : Fin 64) (s : State) : (roundStep n s).buf = s.buf := rfl
@[simp] theorem roundStep_bufcnt (n : Fin 64) (s : State) : (roundStep n s).bufcnt = s.bufcnt := rfl
@[simp] theorem roundStep_len (n : Fin 64) (s : State) : (roundStep n s).len = s.len := rfl
@[simp] theorem roundStep_phase (n : Fin 64) (s : State) : (roundStep n s).phase = s.phase := rfl
@[simp] theorem roundStep_busy (n : Fin 64) (s : State) : (roundStep n s).busy = s.busy := rfl
@[simp] theorem roundStep_estep (n : Fin 64) (s : State) : (roundStep n s).estep = if n.val + 1 = 64 then .accum else .round := rfl
@[simp] theorem roundStep_t (n : Fin 64) (s : State) : (roundStep n s).t = n.val + 1 := rfl
@[simp] theorem roundStep_fin (n : Fin 64) (s : State) : (roundStep n s).fin = s.fin := rfl
@[simp] theorem roundStep_eOvf (n : Fin 64) (s : State) : (roundStep n s).eOvf = s.eOvf := rfl
@[simp] theorem roundStep_eIll (n : Fin 64) (s : State) : (roundStep n s).eIll = s.eIll := rfl
@[simp] theorem roundStep_eSeq (n : Fin 64) (s : State) : (roundStep n s).eSeq = s.eSeq := rfl
@[simp] theorem roundStep_cmds (n : Fin 64) (s : State) : (roundStep n s).cmds = s.cmds := rfl
@[simp] theorem roundStep_rsps (n : Fin 64) (s : State) : (roundStep n s).rsps = s.rsps := rfl
@[simp] theorem roundStep_sched (n : Fin 64) (s : State) : (roundStep n s).sched = s.sched := rfl
@[simp] theorem roundStep_tick (n : Fin 64) (s : State) : (roundStep n s).tick = s.tick := rfl

/-! `accumHash`. -/

@[simp] theorem accumHash_h (s : State) : (accumHash s).h = accumulate s.h s.v := rfl
@[simp] theorem accumHash_v (s : State) : (accumHash s).v = s.v := rfl
@[simp] theorem accumHash_w (s : State) : (accumHash s).w = s.w := rfl
@[simp] theorem accumHash_k (s : State) : (accumHash s).k = s.k := rfl
@[simp] theorem accumHash_buf (s : State) : (accumHash s).buf = s.buf := rfl
@[simp] theorem accumHash_bufcnt (s : State) : (accumHash s).bufcnt = s.bufcnt := rfl
@[simp] theorem accumHash_len (s : State) : (accumHash s).len = s.len := rfl
@[simp] theorem accumHash_phase (s : State) : (accumHash s).phase = s.phase := rfl
@[simp] theorem accumHash_busy (s : State) : (accumHash s).busy = s.busy := rfl
@[simp] theorem accumHash_estep (s : State) : (accumHash s).estep = s.estep := rfl
@[simp] theorem accumHash_t (s : State) : (accumHash s).t = 0 := rfl
@[simp] theorem accumHash_fin (s : State) : (accumHash s).fin = s.fin := rfl
@[simp] theorem accumHash_eOvf (s : State) : (accumHash s).eOvf = s.eOvf := rfl
@[simp] theorem accumHash_eIll (s : State) : (accumHash s).eIll = s.eIll := rfl
@[simp] theorem accumHash_eSeq (s : State) : (accumHash s).eSeq = s.eSeq := rfl
@[simp] theorem accumHash_cmds (s : State) : (accumHash s).cmds = s.cmds := rfl
@[simp] theorem accumHash_rsps (s : State) : (accumHash s).rsps = s.rsps := rfl
@[simp] theorem accumHash_sched (s : State) : (accumHash s).sched = s.sched := rfl
@[simp] theorem accumHash_tick (s : State) : (accumHash s).tick = s.tick := rfl

/-! `present`. -/

@[simp] theorem present_h (s : State) (x : Word) : (s.present x).h = s.h := rfl
@[simp] theorem present_v (s : State) (x : Word) : (s.present x).v = s.v := rfl
@[simp] theorem present_w (s : State) (x : Word) : (s.present x).w = s.w := rfl
@[simp] theorem present_k (s : State) (x : Word) : (s.present x).k = s.k := rfl
@[simp] theorem present_buf (s : State) (x : Word) : (s.present x).buf = s.buf := rfl
@[simp] theorem present_bufcnt (s : State) (x : Word) : (s.present x).bufcnt = s.bufcnt := rfl
@[simp] theorem present_len (s : State) (x : Word) : (s.present x).len = s.len := rfl
@[simp] theorem present_phase (s : State) (x : Word) : (s.present x).phase = s.phase := rfl
@[simp] theorem present_busy (s : State) (x : Word) : (s.present x).busy = s.busy := rfl
@[simp] theorem present_estep (s : State) (x : Word) : (s.present x).estep = s.estep := rfl
@[simp] theorem present_t (s : State) (x : Word) : (s.present x).t = s.t := rfl
@[simp] theorem present_fin (s : State) (x : Word) : (s.present x).fin = s.fin := rfl
@[simp] theorem present_eOvf (s : State) (x : Word) : (s.present x).eOvf = s.eOvf := rfl
@[simp] theorem present_eIll (s : State) (x : Word) : (s.present x).eIll = s.eIll := rfl
@[simp] theorem present_eSeq (s : State) (x : Word) : (s.present x).eSeq = s.eSeq := rfl
@[simp] theorem present_cmds (s : State) (x : Word) : (s.present x).cmds = x :: s.cmds := rfl
@[simp] theorem present_rsps (s : State) (x : Word) : (s.present x).rsps = s.rsps := rfl
@[simp] theorem present_sched (s : State) (x : Word) : (s.present x).sched = .host :: s.sched := rfl
@[simp] theorem present_tick (s : State) (x : Word) : (s.present x).tick = s.tick := rfl

/-! `accumStep`: the fields no case changes, and `h`, `t`; then the step in each of its three cases. -/

@[simp] theorem accumStep_h (s : State) : (accumStep s).h = accumulate s.h s.v := by unfold accumStep afterBlock; split <;> rfl
@[simp] theorem accumStep_v (s : State) : (accumStep s).v = s.v := by unfold accumStep afterBlock; split <;> rfl
@[simp] theorem accumStep_w (s : State) : (accumStep s).w = s.w := by unfold accumStep afterBlock; split <;> rfl
@[simp] theorem accumStep_k (s : State) : (accumStep s).k = s.k := by unfold accumStep afterBlock; split <;> rfl
@[simp] theorem accumStep_len (s : State) : (accumStep s).len = s.len := by unfold accumStep afterBlock; split <;> rfl
@[simp] theorem accumStep_t (s : State) : (accumStep s).t = 0 := by unfold accumStep afterBlock; split <;> rfl
@[simp] theorem accumStep_eOvf (s : State) : (accumStep s).eOvf = s.eOvf := by unfold accumStep afterBlock; split <;> rfl
@[simp] theorem accumStep_eIll (s : State) : (accumStep s).eIll = s.eIll := by unfold accumStep afterBlock; split <;> rfl
@[simp] theorem accumStep_eSeq (s : State) : (accumStep s).eSeq = s.eSeq := by unfold accumStep afterBlock; split <;> rfl
@[simp] theorem accumStep_cmds (s : State) : (accumStep s).cmds = s.cmds := by unfold accumStep afterBlock; split <;> rfl
@[simp] theorem accumStep_rsps (s : State) : (accumStep s).rsps = s.rsps := by unfold accumStep afterBlock; split <;> rfl
@[simp] theorem accumStep_sched (s : State) : (accumStep s).sched = s.sched := by unfold accumStep afterBlock; split <;> rfl
@[simp] theorem accumStep_tick (s : State) : (accumStep s).tick = s.tick := by unfold accumStep afterBlock; split <;> rfl

theorem accumStep_none {s : State} (f : s.fin = .none) :
    accumStep s = { s with h := accumulate s.h s.v, t := 0, busy := false, estep := .idle } := by
  simp [accumStep, afterBlock, accumHash, f]

theorem accumStep_pad2 {s : State} (f : s.fin = .pad2) :
    accumStep s = { s with
      h := accumulate s.h s.v, t := 0, buf := lengthOnlyBuf s.len, bufcnt := 64, fin := .last, estep := .load } := by
  simp [accumStep, afterBlock, accumHash, f]

theorem accumStep_last {s : State} (f : s.fin = .last) :
    accumStep s = { s with
      h := accumulate s.h s.v, t := 0, fin := .none, phase := .done, busy := false, estep := .idle } := by
  simp [accumStep, afterBlock, accumHash, f]

/-! `padAndStart`. -/

@[simp] theorem padAndStart_h (s : State) : (padAndStart s).h = s.h := rfl
@[simp] theorem padAndStart_v (s : State) : (padAndStart s).v = s.v := rfl
@[simp] theorem padAndStart_w (s : State) : (padAndStart s).w = s.w := rfl
@[simp] theorem padAndStart_k (s : State) : (padAndStart s).k = s.k := rfl
@[simp] theorem padAndStart_buf (s : State) : (padAndStart s).buf = paddedBuf s := rfl
@[simp] theorem padAndStart_bufcnt (s : State) : (padAndStart s).bufcnt = 64 := rfl
@[simp] theorem padAndStart_len (s : State) : (padAndStart s).len = s.len := rfl
@[simp] theorem padAndStart_phase (s : State) : (padAndStart s).phase = s.phase := rfl
@[simp] theorem padAndStart_busy (s : State) : (padAndStart s).busy = true := rfl
@[simp] theorem padAndStart_estep (s : State) : (padAndStart s).estep = .load := rfl
@[simp] theorem padAndStart_t (s : State) : (padAndStart s).t = s.t := rfl
@[simp] theorem padAndStart_fin (s : State) : (padAndStart s).fin = if lengthFits s then .last else .pad2 := rfl
@[simp] theorem padAndStart_eOvf (s : State) : (padAndStart s).eOvf = s.eOvf := rfl
@[simp] theorem padAndStart_eIll (s : State) : (padAndStart s).eIll = s.eIll := rfl
@[simp] theorem padAndStart_eSeq (s : State) : (padAndStart s).eSeq = s.eSeq := rfl
@[simp] theorem padAndStart_cmds (s : State) : (padAndStart s).cmds = s.cmds := rfl
@[simp] theorem padAndStart_rsps (s : State) : (padAndStart s).rsps = s.rsps ++ [0] := rfl
@[simp] theorem padAndStart_sched (s : State) : (padAndStart s).sched = s.sched := rfl
@[simp] theorem padAndStart_tick (s : State) : (padAndStart s).tick = s.tick := rfl

/-! `absorbByte`: the byte that fills the block starts the ENGINE. -/

@[simp] theorem absorbByte_h (b : Byte) (s : State) : (absorbByte b s).h = s.h := by by_cases e : s.bufcnt = 63 <;> simp [absorbByte, e]
@[simp] theorem absorbByte_v (b : Byte) (s : State) : (absorbByte b s).v = s.v := by by_cases e : s.bufcnt = 63 <;> simp [absorbByte, e]
@[simp] theorem absorbByte_w (b : Byte) (s : State) : (absorbByte b s).w = s.w := by by_cases e : s.bufcnt = 63 <;> simp [absorbByte, e]
@[simp] theorem absorbByte_k (b : Byte) (s : State) : (absorbByte b s).k = s.k := by by_cases e : s.bufcnt = 63 <;> simp [absorbByte, e]
@[simp] theorem absorbByte_buf (b : Byte) (s : State) : (absorbByte b s).buf = s.buf.setIfInBounds s.bufcnt b := by by_cases e : s.bufcnt = 63 <;> simp [absorbByte, e]
@[simp] theorem absorbByte_bufcnt (b : Byte) (s : State) : (absorbByte b s).bufcnt = s.bufcnt + 1 := by by_cases e : s.bufcnt = 63 <;> simp [absorbByte, e]
@[simp] theorem absorbByte_len (b : Byte) (s : State) : (absorbByte b s).len = s.len + 1 := by by_cases e : s.bufcnt = 63 <;> simp [absorbByte, e]
@[simp] theorem absorbByte_phase (b : Byte) (s : State) : (absorbByte b s).phase = s.phase := by by_cases e : s.bufcnt = 63 <;> simp [absorbByte, e]
@[simp] theorem absorbByte_busy (b : Byte) (s : State) : (absorbByte b s).busy = (decide (s.bufcnt = 63) || s.busy) := by by_cases e : s.bufcnt = 63 <;> simp [absorbByte, e]
@[simp] theorem absorbByte_estep (b : Byte) (s : State) : (absorbByte b s).estep = if s.bufcnt = 63 then .load else s.estep := by by_cases e : s.bufcnt = 63 <;> simp [absorbByte, e]
@[simp] theorem absorbByte_t (b : Byte) (s : State) : (absorbByte b s).t = s.t := by by_cases e : s.bufcnt = 63 <;> simp [absorbByte, e]
@[simp] theorem absorbByte_fin (b : Byte) (s : State) : (absorbByte b s).fin = if s.bufcnt = 63 then .none else s.fin := by by_cases e : s.bufcnt = 63 <;> simp [absorbByte, e]
@[simp] theorem absorbByte_eOvf (b : Byte) (s : State) : (absorbByte b s).eOvf = s.eOvf := by by_cases e : s.bufcnt = 63 <;> simp [absorbByte, e]
@[simp] theorem absorbByte_eIll (b : Byte) (s : State) : (absorbByte b s).eIll = s.eIll := by by_cases e : s.bufcnt = 63 <;> simp [absorbByte, e]
@[simp] theorem absorbByte_eSeq (b : Byte) (s : State) : (absorbByte b s).eSeq = s.eSeq := by by_cases e : s.bufcnt = 63 <;> simp [absorbByte, e]
@[simp] theorem absorbByte_cmds (b : Byte) (s : State) : (absorbByte b s).cmds = s.cmds := by by_cases e : s.bufcnt = 63 <;> simp [absorbByte, e]
@[simp] theorem absorbByte_rsps (b : Byte) (s : State) : (absorbByte b s).rsps = s.rsps ++ [0] := by by_cases e : s.bufcnt = 63 <;> simp [absorbByte, e]
@[simp] theorem absorbByte_sched (b : Byte) (s : State) : (absorbByte b s).sched = s.sched := by by_cases e : s.bufcnt = 63 <;> simp [absorbByte, e]
@[simp] theorem absorbByte_tick (b : Byte) (s : State) : (absorbByte b s).tick = s.tick := by by_cases e : s.bufcnt = 63 <;> simp [absorbByte, e]

end Sys2Proof.Machine
end

