-- ==== Sys2Proof/Laws/Ops.lean ====
section
/-! SUPPORT. One lemma per shared operation, saying all it can do; the case lists of a command, a micro-step and a
step, which later proofs cite instead of unfolding them. -/

namespace Sys2Proof.Machine

@[simp] theorem getElem_tabulate {α : Type} {n : Nat} (f : Fin n → α) (i : Nat) (h : i < n) :
    (tabulate n f)[i] = f ⟨i, h⟩ := by simp [tabulate]

@[simp] theorem toList_tabulate {α : Type} {n : Nat} (f : Fin n → α) : (tabulate n f).toList = List.ofFn f := by
  simp [tabulate]

theorem whenIdle_idle {s : State} (k : State) (idle : s.busy = false) : whenIdle s k = .next k := by
  simp [whenIdle, idle]

theorem whenIdle_busy {s : State} (k : State) (busy : s.busy = true) : whenIdle s k = .next s := by
  simp [whenIdle, busy]

/-- All a command can do. -/
inductive ExecCase (i : Instr) (s : State) : State → Prop
  /-- held while the ENGINE runs (70_reset_and_hazards.md R166) -/
  | held (busy : s.busy = true) (notNop : i ≠ .nop) (notRdstat : i ≠ .rdstat) : ExecCase i s s
  /-- NOP, RDSTAT or a read: one response and nothing else -/
  | answered (r : Word) (quiet : i.quiet = true) (may : s.busy = false ∨ i = .nop ∨ i = .rdstat) :
      ExecCase i s (respond r s)
  /-- an operand out of range -/
  | raisedIll (idle : s.busy = false) (quiet : i.quiet = true) (illFormed : i.wf = false) : ExecCase i s (raise .ill s)
  /-- ABSORB or FINAL outside phase ABSORB -/
  | raisedSeq (idle : s.busy = false) (which : i = .final ∨ ∃ b, i = .absorb b) (phase : s.phase ≠ .absorb) :
      ExecCase i s (raise .seq s)
  /-- ABSORB at the length limit -/
  | raisedOvf (b : Byte) (idle : s.busy = false) (which : i = .absorb b) (phase : s.phase = .absorb)
      (full : s.len = Config.maxLen) : ExecCase i s (raise .ovf s)
  | initialised (idle : s.busy = false) (which : i = .init) : ExecCase i s (respond 0 (startMessage s))
  | absorbed (b : Byte) (idle : s.busy = false) (which : i = .absorb b) (phase : s.phase = .absorb)
      (room : s.len ≠ Config.maxLen) : ExecCase i s (absorbByte b s)
  | padded (idle : s.busy = false) (which : i = .final) (phase : s.phase = .absorb) : ExecCase i s (padAndStart s)

/-- A read of an index answers, or raises E_ILL where the index is out of range. -/
theorem readIndexed_cases (n : Nat) (opd : Byte) (read : Fin n → Word) (s : State) :
    (∃ lt : opd.toNat < n, readIndexed n opd read s = respond (read ⟨opd.toNat, lt⟩) s)
      ∨ (n ≤ opd.toNat ∧ readIndexed n opd read s = raise .ill s) := by
  by_cases lt : opd.toNat < n
  · exact .inl ⟨lt, by simp [readIndexed, operandIndex, lt]⟩
  · exact .inr ⟨by omega, by simp [readIndexed, operandIndex, lt]⟩

/-- Every command answers a next state, by one of the cases. -/
theorem exec_cases (i : Instr) (s : State) : ∃ t, exec i s = .next t ∧ ExecCase i s t := by
  cases i with
  | nop => exact ⟨_, rfl, .answered 0 rfl (by simp)⟩
  | rdstat => exact ⟨_, rfl, .answered _ rfl (by simp)⟩
  | init =>
    cases b : s.busy with
    | true => exact ⟨_, whenIdle_busy _ b, .held b (by simp) (by simp)⟩
    | false => exact ⟨_, whenIdle_idle _ b, .initialised b rfl⟩
  | absorb x =>
    cases b : s.busy with
    | true => exact ⟨_, whenIdle_busy _ b, .held b (by simp) (by simp)⟩
    | false =>
      refine ⟨_, whenIdle_idle _ b, ?_⟩
      split
      · exact .raisedSeq b (.inr ⟨x, rfl⟩) ‹_›
      · split
        · exact .raisedOvf x b rfl (by simp_all) ‹_›
        · exact .absorbed x b rfl (by simp_all) ‹_›
  | final =>
    cases b : s.busy with
    | true => exact ⟨_, whenIdle_busy _ b, .held b (by simp) (by simp)⟩
    | false =>
      refine ⟨_, whenIdle_idle _ b, ?_⟩
      split
      · exact .raisedSeq b (.inl rfl) ‹_›
      · exact .padded b rfl (by simp_all)
  | rdword k =>
    cases b : s.busy with
    | true => exact ⟨_, whenIdle_busy _ b, .held b (by simp) (by simp)⟩
    | false =>
      refine ⟨_, whenIdle_idle _ b, ?_⟩
      obtain ⟨lt, e⟩ | ⟨ge, e⟩ := readIndexed_cases 8 k (fun i => s.h[i]) s <;> rw [e]
      · exact .answered _ rfl (.inl b)
      · exact .raisedIll b rfl (by simpa [Instr.wf] using ge)
  | rdbyte k =>
    cases b : s.busy with
    | true => exact ⟨_, whenIdle_busy _ b, .held b (by simp) (by simp)⟩
    | false =>
      refine ⟨_, whenIdle_idle _ b, ?_⟩
      obtain ⟨lt, e⟩ | ⟨ge, e⟩ := readIndexed_cases 32 k (fun j => (digestByte s.h j).setWidth 32) s <;> rw [e]
      · exact .answered _ rfl (.inl b)
      · exact .raisedIll b rfl (by simpa [Instr.wf] using ge)
  | rdhex k =>
    cases b : s.busy with
    | true => exact ⟨_, whenIdle_busy _ b, .held b (by simp) (by simp)⟩
    | false =>
      refine ⟨_, whenIdle_idle _ b, ?_⟩
      obtain ⟨lt, e⟩ | ⟨ge, e⟩ := readIndexed_cases 64 k (fun j => (digestChar s.h j).setWidth 32) s <;> rw [e]
      · exact .answered _ rfl (.inl b)
      · exact .raisedIll b rfl (by simpa [Instr.wf] using ge)

/-- What a command did, where it answered a next state. -/
theorem execCase_of_next {i : Instr} {s t : State} (h : exec i s = .next t) : ExecCase i s t := by
  obtain ⟨u, e, c⟩ := exec_cases i s
  rw [e] at h
  cases h
  exact c

/-- All an ENGINE step can do. -/
inductive EngineCase (s : State) : State → Prop
  | none (off : engineEnabled s = false) : EngineCase s s
  | load (busy : s.busy = true) (at' : s.estep = .load) : EngineCase s (loadStep s)
  | round (busy : s.busy = true) (at' : s.estep = .round) (lt : s.t < 64) : EngineCase s (roundStep ⟨s.t, lt⟩ s)
  | accum (busy : s.busy = true) (at' : s.estep = .accum) : EngineCase s (accumStep s)

theorem engineCase (s : State) : EngineCase s (engineStep s) := by
  unfold engineStep
  split
  · rename_i on
    unfold engineEnabled at on
    unfold microStep
    cases e : s.estep <;> simp only [e, Bool.and_eq_true, decide_eq_true_eq] at on
    · exact absurd on.2 (by simp)
    · exact .load on.1 e
    · simp only [on.2, dif_pos]; exact .round on.1 e on.2
    · exact .accum on.1 e
  · exact .none (by simp_all)

theorem engineStep_load {s : State} (busy : s.busy = true) (at' : s.estep = .load) : engineStep s = loadStep s := by
  simp [engineStep, engineEnabled, microStep, busy, at']

theorem engineStep_round {s : State} (busy : s.busy = true) (at' : s.estep = .round) (lt : s.t < 64) :
    engineStep s = roundStep ⟨s.t, lt⟩ s := by
  simp [engineStep, engineEnabled, microStep, busy, at', lt]

theorem engineStep_accum {s : State} (busy : s.busy = true) (at' : s.estep = .accum) :
    engineStep s = accumStep s := by
  simp [engineStep, engineEnabled, microStep, busy, at']

theorem engineStep_idle {s : State} (idle : s.busy = false) : engineStep s = s := by
  simp [engineStep, engineEnabled, idle]

/-- All a step can do. `ms` and `n` are what is left of the chosen moves, and the counter. -/
inductive StepCase (s : State) : State → Prop
  | reset (again : Bool) (ms : List Move) (chosen : s.sched = .reset again :: ms) :
      StepCase s (resetCore again { s with sched := ms })
  | illegal (w : Word) (ws : List Word) (r : Reject) (n : Nat) (presented : s.cmds = w :: ws)
      (may : accepted s w = true) (bad : decode w = .error r) :
      StepCase s (raise .ill { s with cmds := ws, sched := s.sched.tail, tick := n })
  | command (w : Word) (ws : List Word) (i : Instr) (n : Nat) (t : State) (presented : s.cmds = w :: ws)
      (may : accepted s w = true) (isCommand : decode w = .ok i)
      (does : exec i { s with cmds := ws, sched := s.sched.tail, tick := n } = .next t) : StepCase s t
  | engine (n : Nat) (noReset : ∀ a ms, s.sched ≠ .reset a :: ms) :
      StepCase s (engineStep { s with sched := s.sched.tail, tick := n })

theorem turn_cases {first : Bool} {s t : State} (h : turn first s = .next t) :
    (hostEnabled s = true ∧ hostStep s = .next t) ∨ t = engineStep s := by
  unfold turn at h
  split at h
  · exact .inl ⟨by simp_all, h⟩
  · cases h; exact .inr rfl

theorem perform_ok {w : Word} {s : State} {i : Instr} (h : decode w = .ok i) : perform w s = exec i s := by
  simp [perform, h]

theorem perform_error {w : Word} {s : State} {r : Reject} (h : decode w = .error r) :
    perform w s = .next (raise .ill s) := by
  simp [perform, h]

/-- Performing a word answers a next state, which `performed` is. -/
theorem perform_eq (w : Word) (s : State) : perform w s = .next (performed w s) := by
  have : ∃ t, perform w s = .next t := by
    cases d : decode w with
    | ok i => obtain ⟨t, e, -⟩ := exec_cases i s; exact ⟨t, by rw [perform_ok d, e]⟩
    | error r => exact ⟨_, perform_error d⟩
  obtain ⟨t, e⟩ := this
  simp [performed, e]

theorem hostStep_cons {s : State} {w : Word} {ws : List Word} (h : s.cmds = w :: ws) :
    hostStep s = perform w { s with cmds := ws } := by
  simp [hostStep, h]

theorem hostEnabled_cons {s : State} {w : Word} {ws : List Word} (h : s.cmds = w :: ws) :
    hostEnabled s = accepted s w := by
  simp [hostEnabled, h]

theorem turn_next (first : Bool) (s : State) : ∃ t, turn first s = .next t := by
  unfold turn
  split
  · cases c : s.cmds with
    | nil => exact ⟨s, by simp [hostStep, c]⟩
    | cons w ws => exact ⟨_, by rw [hostStep_cons c, perform_eq]⟩
  · exact ⟨_, rfl⟩

/-- What a step did, where it answered a next state. -/
theorem stepCase_of_next {s t : State} (h : step s = .next t) : StepCase s t := by
  have go : ∀ (n : Nat) (first : Bool), (∀ a ms, s.sched ≠ .reset a :: ms) →
      turn first { s with sched := s.sched.tail, tick := n } = .next t → StepCase s t := by
    intro n first nr h
    obtain ⟨on, h⟩ | h := turn_cases h
    · cases c : s.cmds with
      | nil => simp [hostEnabled, c] at on
      | cons w ws =>
        rw [hostEnabled_cons (s := { s with sched := s.sched.tail, tick := n }) (w := w) (ws := ws) (by simp [c])] at on
        rw [hostStep_cons (w := w) (ws := ws) (by simp [c])] at h
        cases d : decode w with
        | ok i => rw [perform_ok d] at h; exact .command w ws i n t c on d h
        | error r => rw [perform_error d] at h; cases h; exact .illegal w ws r n c on d
    · rw [h]; exact .engine n nr
  unfold step at h
  cases c : s.sched with
  | nil =>
    have same : { s with sched := s.sched.tail, tick := s.tick } = s := by cases s; simp_all
    have nr : ∀ a ms, s.sched ≠ .reset a :: ms := by simp [c]
    simp only [c, stepFree] at h
    split at h
    · exact go (s.tick + 1) _ nr (by simpa [c] using h)
    · exact go s.tick true nr (by rw [same]; exact h)
  | cons m ms =>
    simp only [c, stepBy] at h
    cases m with
    | reset a => cases h; exact .reset a ms c
    | host => exact go s.tick true (by simp [c]) (by simpa [c] using h)
    | engine => exact go s.tick false (by simp [c]) (by simpa [c] using h)

theorem step_host {s : State} {ms : List Move} (h : s.sched = .host :: ms) :
    step s = turn true { s with sched := ms } := by
  simp only [step, h, stepBy]

theorem step_engine {s : State} {ms : List Move} (h : s.sched = .engine :: ms) :
    step s = turn false { s with sched := ms } := by
  simp only [step, h, stepBy]

theorem step_reset {s : State} {again : Bool} {ms : List Move} (h : s.sched = .reset again :: ms) :
    step s = .next (resetCore again { s with sched := ms }) := by
  simp only [step, h, stepBy]

/-- With no move chosen and not both agents enabled, the enabled one steps. -/
theorem step_free_one {s : State} (h : s.sched = []) (one : hostEnabled s = false ∨ engineEnabled s = false) :
    step s = turn true s := by
  have : ¬ (hostEnabled s && engineEnabled s) = true := by
    obtain e | e := one <;> simp [e]
  simp only [step, h, stepFree, if_neg this]

/-- With no move chosen and both agents enabled, the free value decides (log 3). -/
theorem step_free_both {s : State} (h : s.sched = []) (host : hostEnabled s = true) (engine : engineEnabled s = true) :
    step s = turn (Config.hostFirst s.tick) { s with tick := s.tick + 1 } := by
  have both : (hostEnabled s && engineEnabled s) = true := by simp [host, engine]
  have : step s = stepFree s := by simp only [step, h]
  rw [this]
  exact if_pos both

theorem turn_hostStep {first : Bool} {s : State} (host : hostEnabled s = true)
    (before : engineEnabled s = false ∨ first = true) : turn first s = hostStep s := by
  refine if_pos ?_
  obtain e | e := before <;> simp [host, e]

theorem turn_engineStep {first : Bool} {s : State}
    (h : hostEnabled s = false ∨ (engineEnabled s = true ∧ first = false)) : turn first s = .next (engineStep s) := by
  refine if_neg ?_
  obtain e | ⟨e, f⟩ := h
  · simp [e]
  · simp [e, f]

theorem engineEnabled_busy {s : State} (h : engineEnabled s = true) : s.busy = true := by
  simp only [engineEnabled, Bool.and_eq_true] at h
  exact h.1

theorem engineEnabled_idle {s : State} (idle : s.busy = false) : engineEnabled s = false := by
  simp [engineEnabled, idle]

theorem accepted_iff (s : State) (w : Word) :
    accepted s w = true ↔ (s.busy = false ∨ w = 0x00000000 ∨ w = 0x40000000) := by
  simp [accepted, or_assoc]

theorem run_zero (s : State) : Sys2Proof.core.run 0 s = .next s := rfl

theorem run_succ {s t : State} (n : Nat) (h : step s = .next t) :
    Sys2Proof.core.run (n + 1) s = Sys2Proof.core.run n t := by
  have : Sys2Proof.core.step s = .next t := h
  simp [Host.Core.run, this]

theorem engineRun_add (m n : Nat) (s : State) : engineRun (m + n) s = engineRun n (engineRun m s) := by
  induction m generalizing s with
  | zero => simp [engineRun]
  | succ m ih => rw [Nat.succ_add]; exact ih (engineStep s)

theorem engineRun_succ (n : Nat) (s : State) : engineRun (n + 1) s = engineStep (engineRun n s) := by
  rw [engineRun_add]; rfl

end Sys2Proof.Machine
end

