-- ==== Sys2Proof/Laws/Agents.lean ====
section
/-! SUPPORT. What the world around the block (`cmds`, `rsps`, `sched`, `tick`) has to do with a command, a word and a
micro-step: nothing but the one response. And which agent a step belongs to. -/

namespace Sys2Proof.Machine

/-- The block of `s` in another world. -/
def State.withWorld (s : State) (cmds rsps : List Word) (sched : List Move) (tick : Nat) : State :=
  { s with cmds := cmds, rsps := rsps, sched := sched, tick := tick }

/-- An ENGINE step writes nothing of the world, nor `K`, `len` and the error flags (41_compression.md R110 to R113). -/
theorem engineStep_keeps (s : State) :
    (engineStep s).cmds = s.cmds ∧ (engineStep s).rsps = s.rsps ∧ (engineStep s).sched = s.sched
      ∧ (engineStep s).tick = s.tick ∧ (engineStep s).k = s.k ∧ (engineStep s).len = s.len
      ∧ (engineStep s).eOvf = s.eOvf ∧ (engineStep s).eIll = s.eIll ∧ (engineStep s).eSeq = s.eSeq := by
  have c := engineCase s
  generalize engineStep s = t at c ⊢
  cases c
  case none => simp
  case load => simp
  case round => simp
  case accum => simp only [accumStep, afterBlock]; split <;> simp

/-- An ENGINE step does the same in any world. -/
theorem engineStep_withWorld (s : State) (cmds rsps : List Word) (sched : List Move) (tick : Nat) :
    engineStep (s.withWorld cmds rsps sched tick) = (engineStep s).withWorld cmds rsps sched tick := by
  obtain ⟨h, v, w, k, buf, bufcnt, len, phase, busy, estep, t, fin, eOvf, eIll, eSeq, cs, rs, ms, n⟩ := s
  cases busy
  · rfl
  cases estep
  · rfl
  · rfl
  · by_cases q : t < 64
    · rw [engineStep_round rfl rfl q]
      simp only [State.withWorld]
      rw [engineStep_round rfl rfl q]
      rfl
    · simp [State.withWorld, engineStep, engineEnabled, q]
  · cases fin <;> rfl

theorem readIndexed_withWorld (n : Nat) (opd : Byte) (read : Fin n → Word) (s : State) :
    readIndexed n opd read s =
      (readIndexed n opd read s.block).withWorld s.cmds (s.rsps ++ (readIndexed n opd read s.block).rsps) s.sched
        s.tick := by
  unfold readIndexed
  cases operandIndex n opd <;> rfl

/-- A command does to the block what it does to the block alone, and appends the same response in any world. -/
theorem exec_withWorld (i : Instr) (s : State) :
    ∃ b, exec i s.block = .next b ∧ exec i s = .next (b.withWorld s.cmds (s.rsps ++ b.rsps) s.sched s.tick) := by
  cases hb : s.busy with
  | true =>
    have hb' : s.block.busy = true := hb
    have held : s = s.block.withWorld s.cmds (s.rsps ++ s.block.rsps) s.sched s.tick := by
      simp [State.withWorld, State.block]
    cases i with
    | nop => exact ⟨_, rfl, rfl⟩
    | rdstat => exact ⟨_, rfl, rfl⟩
    | init => exact ⟨_, whenIdle_busy _ hb', (whenIdle_busy _ hb).trans (congrArg _ held)⟩
    | absorb b => exact ⟨_, whenIdle_busy _ hb', (whenIdle_busy _ hb).trans (congrArg _ held)⟩
    | final => exact ⟨_, whenIdle_busy _ hb', (whenIdle_busy _ hb).trans (congrArg _ held)⟩
    | rdword k => exact ⟨_, whenIdle_busy _ hb', (whenIdle_busy _ hb).trans (congrArg _ held)⟩
    | rdbyte j => exact ⟨_, whenIdle_busy _ hb', (whenIdle_busy _ hb).trans (congrArg _ held)⟩
    | rdhex j => exact ⟨_, whenIdle_busy _ hb', (whenIdle_busy _ hb).trans (congrArg _ held)⟩
  | false =>
    have hb' : s.block.busy = false := hb
    have phase : s.block.phase = s.phase := rfl
    cases i with
    | nop => exact ⟨_, rfl, rfl⟩
    | rdstat => exact ⟨_, rfl, rfl⟩
    | init => exact ⟨_, whenIdle_idle _ hb', whenIdle_idle _ hb⟩
    | absorb b =>
      refine ⟨_, whenIdle_idle _ hb', (whenIdle_idle _ hb).trans (congrArg _ ?_)⟩
      have len : s.block.len = s.len := rfl
      rw [phase, len]
      split
      · rfl
      · split
        · rfl
        · have cnt : (respond 0 (appendByte b s.block)).bufcnt = (respond 0 (appendByte b s)).bufcnt := rfl
          simp only [absorbByte, cnt]
          split <;> rfl
    | final =>
      refine ⟨_, whenIdle_idle _ hb', (whenIdle_idle _ hb).trans (congrArg _ ?_)⟩
      rw [phase]
      split <;> rfl
    | rdword k => exact ⟨_, whenIdle_idle _ hb', (whenIdle_idle _ hb).trans (congrArg _ (readIndexed_withWorld _ _ _ s))⟩
    | rdbyte j => exact ⟨_, whenIdle_idle _ hb', (whenIdle_idle _ hb).trans (congrArg _ (readIndexed_withWorld _ _ _ s))⟩
    | rdhex j => exact ⟨_, whenIdle_idle _ hb', (whenIdle_idle _ hb).trans (congrArg _ (readIndexed_withWorld _ _ _ s))⟩

theorem performed_ok {w : Word} {i : Instr} {s t : State} (d : decode w = .ok i) (e : exec i s = .next t) :
    performed w s = t := by
  simp [performed, perform_ok d, e]

theorem performed_error {w : Word} {r : Reject} {s : State} (d : decode w = .error r) :
    performed w s = raise .ill s := by
  simp [performed, perform_error d]

/-- The same of a word, legal or not. -/
theorem performed_withWorld (w : Word) (s : State) :
    performed w s =
      (performed w s.block).withWorld s.cmds (s.rsps ++ (performed w s.block).rsps) s.sched s.tick := by
  cases d : decode w with
  | error r => rw [performed_error d, performed_error d]; rfl
  | ok i =>
    obtain ⟨b, e1, e2⟩ := exec_withWorld i s
    rw [performed_ok d e1, performed_ok d e2]

theorem noReset_cons {m : Move} {ms : List Move} (h : noReset (m :: ms)) : noReset ms ∧ ∀ again, m ≠ .reset again :=
  ⟨fun a mem => h a (List.mem_cons_of_mem _ mem), fun a e => h a (by simp [e])⟩

/-- A step without RESET is the ENGINE's or performs the presented word, in any world. -/
theorem step_agents {s t : State} (h : step s = .next t) (nr : noReset s.sched) :
    (∃ tick, t = (engineStep s).withWorld s.cmds s.rsps s.sched.tail tick)
      ∨ ∃ w ws tick, s.cmds = w :: ws ∧ accepted s w = true
          ∧ t = (performed w s).withWorld ws (performed w s).rsps s.sched.tail tick := by
  cases stepCase_of_next h with
  | reset a ms c => exact absurd (by rw [c]; simp) (nr a)
  | illegal w ws r n c a d => exact .inr ⟨w, ws, n, c, a, by rw [performed_error d]; rfl⟩
  | command w ws i n t c a d does =>
    obtain ⟨b, e1, e2⟩ := exec_withWorld i { s with cmds := ws, sched := s.sched.tail, tick := n }
    obtain ⟨b', e1', e2'⟩ := exec_withWorld i s
    have same : b = b' := by
      have e : exec i s.block = .next b := e1
      rw [e] at e1'
      cases e1'
      rfl
    subst same
    rw [e2] at does
    cases does
    exact .inr ⟨w, ws, n, c, a, by rw [performed_ok d e2']; rfl⟩
  | engine n => exact .inl ⟨n, engineStep_withWorld s s.cmds s.rsps s.sched.tail n⟩

/-- With the ENGINE idle and no RESET chosen, a step performs the presented word. -/
theorem step_idle {s : State} {w : Word} {ws : List Word} (idle : s.busy = false) (c : s.cmds = w :: ws)
    (nr : noReset s.sched) : step s = perform w { s with cmds := ws, sched := s.sched.tail } := by
  have on : ∀ ms, hostEnabled { s with sched := ms } = true := by
    intro ms
    rw [hostEnabled_cons (s := { s with sched := ms }) c, accepted_iff]
    exact .inl idle
  have off : ∀ ms, engineEnabled { s with sched := ms } = false := fun ms => engineEnabled_idle idle
  cases k : s.sched with
  | nil =>
    rw [step_free_one k (.inr (off s.sched)), turn_hostStep (on s.sched) (.inl (off s.sched)), hostStep_cons c]
    congr 1
    cases s
    simp_all
  | cons m ms =>
    rw [k] at nr
    cases m with
    | host => rw [step_host k, turn_hostStep (on ms) (.inr rfl)]; exact hostStep_cons c
    | engine => rw [step_engine k, turn_hostStep (on ms) (.inl (off ms))]; exact hostStep_cons c
    | reset a => exact absurd rfl ((noReset_cons nr).2 a)

/-- With no word accepted and no RESET chosen, a step is the ENGINE's. -/
theorem step_held {s : State} (held : hostEnabled s = false) (nr : noReset s.sched) :
    step s = .next (engineStep { s with sched := s.sched.tail }) := by
  cases c : s.sched with
  | nil =>
    rw [step_free_one c (.inl held), turn_engineStep (.inl held)]
    have same : { s with sched := ([] : List Move).tail } = s := by cases s; simp_all
    rw [same]
  | cons m ms =>
    rw [c] at nr
    cases m with
    | host => rw [step_host c]; exact turn_engineStep (.inl held)
    | engine =>
      rw [step_engine c]
      by_cases on : engineEnabled s = true
      · exact turn_engineStep (.inr ⟨on, rfl⟩)
      · exact turn_engineStep (.inl held)
    | reset a => exact absurd rfl ((noReset_cons nr).2 a)

theorem engineRun_idle {s : State} (idle : s.busy = false) (n : Nat) : engineRun n s = s := by
  induction n with
  | zero => rfl
  | succ n ih => rw [engineRun, engineStep_idle idle, ih]

theorem engineRun_withWorld (n : Nat) (s : State) (cmds rsps : List Word) (sched : List Move) (tick : Nat) :
    engineRun n (s.withWorld cmds rsps sched tick) = (engineRun n s).withWorld cmds rsps sched tick := by
  induction n generalizing s with
  | zero => rfl
  | succ n ih => rw [engineRun, engineStep_withWorld]; exact ih (engineStep s)

/-- Settling does the same in any world. Cite this and `settle_idle`, and do not unfold the 132 steps. -/
theorem settle_withWorld (s : State) (cmds rsps : List Word) (sched : List Move) (tick : Nat) :
    settle (s.withWorld cmds rsps sched tick) = (settle s).withWorld cmds rsps sched tick :=
  engineRun_withWorld 132 s cmds rsps sched tick

theorem settle_idle {s : State} (idle : s.busy = false) : settle s = s := engineRun_idle idle 132

end Sys2Proof.Machine
end

