-- ==== Sys2Proof/Laws/Bits.lean ====
section
/-! SUPPORT. Bit by bit and number by number: STATUS, the length field, rotations, the hexadecimal digit. -/

namespace Sys2Proof.Machine

/-- Every bit of STATUS (10_state.md R33). -/
theorem status_bit (s : State) (i : Nat) (hi : i < 32) :
    (status s).getLsbD i =
      ((decide (8 ≤ i) && (s.len % 64).testBit (i - 8)) || (decide (i = 6) && s.eSeq) || (decide (i = 5) && s.eIll)
        || (decide (i = 4) && s.eOvf) || (decide (1 ≤ i) && (phaseCode s.phase).getLsbD (i - 1))
        || (decide (i = 0) && s.busy)) := by
  simp only [status, flagWord, BitVec.getLsbD_or, BitVec.getLsbD_shiftLeft, BitVec.getLsbD_setWidth,
    BitVec.getLsbD_ofBool, BitVec.getLsbD_ofNat]
  have h8 : (i - 8 < 32) := by omega
  have h6 : (i - 6 < 32) := by omega
  have h5 : (i - 5 < 32) := by omega
  have h4 : (i - 4 < 32) := by omega
  have h1 : (i - 1 < 32) := by omega
  simp only [hi, h8, h6, h5, h4, h1, decide_true, Bool.true_and]
  have n8 : (!decide (i < 8)) = decide (8 ≤ i) := by by_cases h : i < 8 <;> simp [h]; omega
  have n1 : (!decide (i < 1)) = decide (1 ≤ i) := by by_cases h : i < 1 <;> simp [h]; omega
  have e6 : (!decide (i < 6) && (decide (i - 6 = 0) && s.eSeq)) = (decide (i = 6) && s.eSeq) := by
    by_cases h : i = 6 <;> simp [h]; omega
  have e5 : (!decide (i < 5) && (decide (i - 5 = 0) && s.eIll)) = (decide (i = 5) && s.eIll) := by
    by_cases h : i = 5 <;> simp [h]; omega
  have e4 : (!decide (i < 4) && (decide (i - 4 = 0) && s.eOvf)) = (decide (i = 4) && s.eOvf) := by
    by_cases h : i = 4 <;> simp [h]; omega
  rw [n8, n1, e6, e5, e4]

/-- Byte `j` of the length field as a number (20_memory.md R47). -/
theorem lengthByte_eq (len : Nat) (j : Fin 8) :
    lengthByte len j = BitVec.ofNat 8 (8 * len / 256 ^ (7 - j.val)) := by
  apply BitVec.eq_of_toNat_eq
  simp only [lengthByte, be64Byte, BitVec.extractLsb'_toNat, BitVec.toNat_ofNat, Nat.shiftRight_eq_div_pow]
  have : (256 : Nat) ^ (7 - j.val) = 2 ^ (56 - 8 * j.val) := by
    rw [show (256:Nat) = 2 ^ 8 from rfl, ← pow_mul]; congr 1; omega
  rw [this]
  have hj := j.isLt
  generalize 8 * len = x
  generalize he : 56 - 8 * j.val = e
  have : 2 ^ 64 = 2 ^ e * 2 ^ (64 - e) := by rw [← pow_add]; congr 1; omega
  rw [this, Nat.mod_mul_right_div_self]
  apply Nat.mod_mod_of_dvd
  rw [show (2:Nat)^(64 - e) = 2 ^ 8 * 2 ^ (56 - e) by rw [← pow_add]; congr 1; omega]
  exact Dvd.intro _ rfl

/-- A rotation bit by bit (00_scope.md R10). -/
theorem rotr_bit (x : Word) (n i : Nat) (h0 : 0 < n) (h : n < 32) (hi : i < 32) :
    (rotr x n).getLsbD i = x.getLsbD ((i + n) % 32) := by
  simp only [rotr, BitVec.getLsbD_or, BitVec.getLsbD_ushiftRight, BitVec.getLsbD_shiftLeft]
  by_cases g : i + n < 32
  · have h1 : (i + n) % 32 = n + i := by rw [Nat.mod_eq_of_lt g]; omega
    have h2 : i < 32 - n := by omega
    simp [h1, h2]
  · have h1 : (i + n) % 32 = i - (32 - n) := by omega
    have h2 : ¬ i < 32 - n := by omega
    have h3 : x.getLsbD (n + i) = false := BitVec.getLsbD_of_ge _ _ (by omega)
    simp [h1, h2, h3, hi]

/-- The hexadecimal digit as a number (42_control_readout.md R136). -/
theorem hexchar_toNat (n : BitVec 4) :
    (hexchar n).toNat = if n.toNat ≤ 9 then 0x30 + n.toNat else 0x61 + (n.toNat - 10) := by
  revert n; decide

end Sys2Proof.Machine
end

