-- ==== Sys2Proof/Laws/PerInstr.lean ====
section
/-! SUPPORT. The family EncodeFields: the three fields of an encoded command, whatever its operand. -/

namespace Sys2Proof.Laws.EncodeFields

/-- The word of `i` has `i`'s opcode, a reserved field of 0 and `i`'s operand (30_encoding.md R64, R65). -/
def Statement (i : Instr) : Prop :=
  opOf (encode i) = i.opcode ∧ rsvOf (encode i) = 0 ∧ opdOf (encode i) = i.operand

theorem nop : Statement .nop := by simp [Statement, encode]
theorem init : Statement .init := by simp [Statement, encode]
theorem absorb (b : Byte) : Statement (.absorb b) := by simp [Statement, encode]
theorem final : Statement .final := by simp [Statement, encode]
theorem rdstat : Statement .rdstat := by simp [Statement, encode]
theorem rdword (k : Byte) : Statement (.rdword k) := by simp [Statement, encode]
theorem rdbyte (i : Byte) : Statement (.rdbyte i) := by simp [Statement, encode]
theorem rdhex (i : Byte) : Statement (.rdhex i) := by simp [Statement, encode]

end Sys2Proof.Laws.EncodeFields
end

