-- ==== Sys2Proof/Tests/Slice0.lean ====
section
/-! SUPPORT. Tests of the model against the spec's own vectors (spec/95_test_vectors.md, named in each comment), and a
concrete witness of the hypotheses of every statement that has some. -/

namespace Sys2Proof.Machine

/-! ## Helpers -/

/-- The next state of an outcome. -/
def nextOf (o : Host.Outcome State Fault Refusal) : Option State :=
  match o with
  | .next s => some s
  | .fault _ => none
  | .refused _ => none

/-- STATUS and the responses after an outcome. -/
def seen (o : Host.Outcome State Fault Refusal) : Option (Word × List Word) := (nextOf o).map fun s => (status s, s.rsps)

/-- An idle block with `n` bytes of 0x61 in its buffer. -/
def fed (n : Nat) : State := { State.reset with buf := Vector.replicate 64 0x61, bufcnt := n % 64, len := n }

/-- The block of "abc" absorbed. -/
def abc : State :=
  { State.reset with buf := ((State.reset.buf.set 0 0x61).set 1 0x62).set 2 0x63, bufcnt := 3, len := 3 }

/-- "abc" after FINAL, as section 2.2 of the vectors gives the block. -/
def abcRunning : State :=
  { abc with
    buf := (abc.buf.set 3 0x80).set 63 0x18, bufcnt := 64, fin := .last, busy := true, estep := .load }

/-- The hash state of "abc", V-KAT-2. -/
def abcHash : Vector Word 8 :=
  #v[0xba7816bf, 0x8f01cfea, 0x414140de, 0x5dae2223, 0xb00361a3, 0x96177a9c, 0xb410ff61, 0xf20015ad]

/-- "abc" in phase DONE. -/
def abcDone : State := { State.reset with len := 3, phase := .done, h := abcHash }

/-- The state P5 of section 4 starts from. -/
def full : State := { State.reset with len := 2 ^ 61 - 1, bufcnt := 63 }

/-- A running ENGINE at a micro-step. -/
def running (e : EStep) (t bufcnt : Nat) (fin : FinState) : State :=
  { State.reset with busy := true, estep := e, t := t, bufcnt := bufcnt, fin := fin }

/-! ## Well-formedness: one ill-formed command for each check (R66) -/

theorem test_wf_refuses_rdword_8 : Instr.wf (.rdword 8) = false := by decide
theorem test_wf_refuses_rdbyte_32 : Instr.wf (.rdbyte 32) = false := by decide
theorem test_wf_refuses_rdhex_64 : Instr.wf (.rdhex 64) = false := by decide
theorem test_wf_accepts_the_largest :
    Instr.wf (.rdword 7) && Instr.wf (.rdbyte 31) && Instr.wf (.rdhex 63) && Instr.wf (.absorb 255) = true := by decide

/-! ## Decoding: words written out from R64 and R68, `op ‖ rsv ‖ opd` -/

theorem test_decode_nop : decode 0b0000_00000000000000000000_00000000 = .ok .nop := by decide
theorem test_decode_init : decode 0b0001_00000000000000000000_00000000 = .ok .init := by decide
theorem test_decode_absorb : decode 0b0010_00000000000000000000_01100001 = .ok (.absorb 0x61) := by decide
theorem test_decode_final : decode 0b0011_00000000000000000000_00000000 = .ok .final := by decide
theorem test_decode_rdstat : decode 0b0100_00000000000000000000_00000000 = .ok .rdstat := by decide
theorem test_decode_rdword : decode 0b0101_00000000000000000000_00000101 = .ok (.rdword 5) := by decide
theorem test_decode_rdbyte : decode 0b0110_00000000000000000000_00010011 = .ok (.rdbyte 19) := by decide
theorem test_decode_rdhex : decode 0b0111_00000000000000000000_00101010 = .ok (.rdhex 42) := by decide
/-- The illegal rows of section 2.5, each by its reason. -/
theorem test_decode_illegal :
    decode 0x00000001 = .error .operandRange ∧ decode 0x00000100 = .error .reservedField
    ∧ decode 0x100000ff = .error .operandRange ∧ decode 0x20000100 = .error .reservedField
    ∧ decode 0x40000001 = .error .operandRange ∧ decode 0x50000008 = .error .operandRange
    ∧ decode 0x60000020 = .error .operandRange ∧ decode 0x70000040 = .error .operandRange
    ∧ decode 0x80000000 = .error .reservedOpcode ∧ decode 0xf0000000 = .error .reservedOpcode := by decide
/-- Section 2.5: what is accepted while `busy = 1`. -/
theorem test_accepted_while_busy :
    [0x00000000, 0x00000001, 0x00000100, 0x10000000, 0x200000ff, 0x30000000, 0x40000000, 0x40000001, 0x50000007,
      0x80000000].map (accepted abcRunning)
      = [true, false, false, false, false, false, true, false, false, false] := by decide
theorem test_decodeTableWord : decodeTableWord 32 0x6000001f = some (.rdbyte 31) ∧ decodeTableWord 32 0x60000020 = none := by
  decide

/-! ## One step of each command: sections 2.4 and 2.6 -/

theorem test_first_step_after_reset : seen (step (State.reset.withFetchWord 32 0x50000000)) = some (0, [0x6a09e667]) := by
  decide
theorem test_nop_while_running : seen (exec .nop abcRunning) = some (0x00000301, [0]) := by decide
theorem test_init_clears : seen (exec .init { full with phase := .error, eOvf := true, eIll := true, eSeq := true })
    = some (0, [0]) := by decide
theorem test_init_loads_iv : (nextOf (exec .init abcDone)).map State.h = some iv := by decide
theorem test_absorb_first : seen (exec (.absorb 0x61) State.reset) = some (0x00000100, [0]) := by decide
theorem test_absorb_fills_the_block :
    seen (exec (.absorb 0x61) (fed 63)) = some (0x00000001, [0])
    ∧ (nextOf (exec (.absorb 0x61) (fed 63))).map (fun s => (s.bufcnt, s.estep, s.fin)) = some (64, .load, .none) := by
  decide
theorem test_final_abc : seen (exec .final abc) = some (0x00000301, [0])
    ∧ (nextOf (exec .final abc)).map (fun s => (s.buf, s.fin)) = some (abcRunning.buf, .last) := by decide
theorem test_final_two_blocks :
    (nextOf (exec .final (fed 56))).map (fun s => (s.fin, s.buf[55], s.buf[56], s.buf[57], s.buf[63]))
      = some (.pad2, 0x61, 0x80, 0x00, 0x00) := by decide
theorem test_rdstat_done : seen (exec .rdstat abcDone) = some (0x00000302, [0x00000302]) := by decide
theorem test_rdword : seen (exec (.rdword 7) State.reset) = some (0, [0x5be0cd19]) := by decide
theorem test_rdbyte_ends :
    seen (exec (.rdbyte 0) abcDone) = some (0x00000302, [0x000000ba])
    ∧ seen (exec (.rdbyte 31) abcDone) = some (0x00000302, [0x000000ad]) := by decide
theorem test_rdhex_ends :
    seen (exec (.rdhex 0) abcDone) = some (0x00000302, [0x00000062])
    ∧ seen (exec (.rdhex 63) abcDone) = some (0x00000302, [0x00000064]) := by decide
theorem test_overflow : seen (exec (.absorb 0x00) full) = some (0x00003f14, [0]) := by decide
theorem test_final_in_error :
    seen (exec .final { full with phase := .error, eOvf := true }) = some (0x00003f54, [0]) := by decide
theorem test_illegal_word :
    seen (step (State.present { full with phase := .error, eOvf := true, eSeq := true } 0x80000000))
      = some (0x00003f74, [0]) := by decide
theorem test_seq_before_ovf :
    seen (exec (.absorb 0x00) { full with phase := .done, bufcnt := 0 }) = some (0x00003f42, [0]) := by decide

/-! ## The ENGINE: sections 2.1 to 2.3 -/

theorem test_word_functions :
    rotr 0x12345678 7 = 0xf02468ac ∧ sigma0 0x12345678 = 0xe7fce6ee ∧ sigma1 0x12345678 = 0xa1f78649
    ∧ bigSigma0 0x12345678 = 0x66146474 ∧ bigSigma1 0x12345678 = 0x3561abda
    ∧ ch 0xf0f0f0f0 0xaaaaaaaa 0x55555555 = 0xa5a5a5a5 ∧ maj 0xf0f0f0f0 0xcccccccc 0xaaaaaaaa = 0xe8e8e8e8 := by decide
theorem test_load : (engineStep abcRunning).w[0] = 0x61626380 ∧ (engineStep abcRunning).w[15] = 0x18
    ∧ (engineStep abcRunning).v = iv := by decide
/-- Row 0 of section 2.3, from the IV. -/
theorem test_round_first :
    (engineStep { running .round 0 0 .last with v := iv, w := State.reset.w.set 0 0x61626380 }).v
      = #v[0x5d6aebcd, 0x6a09e667, 0xbb67ae85, 0x3c6ef372, 0xfa2a4622, 0x510e527f, 0x9b05688c, 0x1f83d9ab] := by decide
/-- Row 16 of section 2.3, from row 15: `W[16]` is computed just before. -/
theorem test_round_extends_the_schedule :
    (engineStep { running .round 16 0 .last with
        v := #v[0xb0fa238e, 0xc0645fde, 0xd932eb16, 0x87912990, 0x07590dcd, 0x0b92f20c, 0x745a48de, 0x1e578218]
        w := (State.reset.w.set 0 0x61626380).set 15 0x18 }).v
      = #v[0x21da9a9b, 0xb0fa238e, 0xc0645fde, 0xd932eb16, 0x8034229c, 0x07590dcd, 0x0b92f20c, 0x745a48de] := by decide
/-- `W[63]` of section 2.3 from the four entries it reads, and row 63 from row 62. -/
theorem test_round_last :
    (engineStep { running .round 63 0 .last with
        v := #v[0xd39a2165, 0x04d24d6c, 0xb85e2ce9, 0xb6ae8fff, 0xfb121210, 0x948d25b6, 0x961f4894, 0xb21bad3d]
        w := (((State.reset.w.set 47 0x065c43da).set 48 0xfb3e89cb).set 56 0xef57b9cd).set 61 0x668b2ff8 }).v
      = #v[0x506e3058, 0xd39a2165, 0x04d24d6c, 0xb85e2ce9, 0x5ef50f24, 0xfb121210, 0x948d25b6, 0x961f4894] := by decide
theorem test_accum :
    (engineStep { running .accum 64 0 .last with
        v := #v[0x506e3058, 0xd39a2165, 0x04d24d6c, 0xb85e2ce9, 0x5ef50f24, 0xfb121210, 0x948d25b6, 0x961f4894] }).h
      = abcHash := by decide
/-- The length-only block of 56 bytes, section 2.2. -/
theorem test_accum_builds_the_length_block :
    (engineStep { running .accum 64 0 .pad2 with len := 56 }).buf[62] = 0x01
    ∧ (engineStep { running .accum 64 0 .pad2 with len := 56 }).buf[63] = 0xc0 := by decide

/-! ## Constants and padding -/

/-- Whether `k` is the fraction of the square root of `p` (R22), in integers. -/
def isSquareRootFraction (p : Nat) (k : Word) : Bool :=
  let whole := ((List.range 8).filter fun n => n * n ≤ p).length - 1
  let x := 2 ^ 32 * whole + k.toNat
  x * x ≤ p * 2 ^ 64 && p * 2 ^ 64 < (x + 1) * (x + 1)

/-- R22: each IV word is the fraction of the square root of its prime. -/
theorem test_iv_roots : List.zipWith isSquareRootFraction (primes.take 8) iv.toList = List.replicate 8 true := by decide

/-- Whether `k` is the fraction of the cube root of `p` (R106), in integers. -/
def isCubeRootFraction (p : Nat) (k : Word) : Bool :=
  let whole := ((List.range 8).filter fun n => n * n * n ≤ p).length - 1
  let x := 2 ^ 32 * whole + k.toNat
  x * x * x ≤ p * 2 ^ 96 && p * 2 ^ 96 < (x + 1) * (x + 1) * (x + 1)

/-- R106: each round constant is the fraction of the cube root of its prime. -/
theorem test_round_constant_roots :
    List.zipWith isCubeRootFraction (primes.take 32) (roundConstants.toList.take 32) = List.replicate 32 true
    ∧ List.zipWith isCubeRootFraction (primes.drop 32) (roundConstants.toList.drop 32) = List.replicate 32 true := by decide
theorem test_block_counts :
    [0, 55, 56, 64, 119, 120, 1000].map blockCount = [1, 1, 2, 2, 2, 3, 16] := by decide
theorem test_pad_55 : pad (List.replicate 55 0x61)
    = List.replicate 55 0x61 ++ [0x80] ++ [0, 0, 0, 0, 0, 0, 0x01, 0xb8] := by decide

/-! ## RESET, the agents, the clock, the assembler -/

theorem test_reset_while_running :
    seen (step { abcRunning with cmds := [0x50000000], sched := [.reset true], rsps := [7] }) = some (0, [7]) := by decide
theorem test_held_word_waits :
    (nextOf (step (abcRunning.present 0x50000000))).map (fun s => (s.cmds, s.rsps, s.estep))
      = some ([0x50000000], [], .round) := by decide
theorem test_clock_latency :
    (Clocked.run 1 [⟨false, true, 0x50000000⟩, ⟨false, false, 0⟩, ⟨false, false, 0⟩] (Clocked.reset 2)).map
      PortOutputs.rsp = [none, none, some 0x6a09e667] := by decide
theorem test_platform_step :
    (match (Platform.reset 2).stepCore 1 with | .next p => some p.cores[0] | .fault _ => none | .refused _ => none)
      = some State.reset := by decide
theorem test_assembler :
    parseLine "RDHEX 0x3f ; last".toList = some (some (.command (.rdhex 63)))
    ∧ parseLine "ABSORB 'a'".toList = some (some (.command (.absorb 0x61)))
    ∧ parseLine "RDWORD 8".toList = none
    ∧ parseLine ".word 0x80000000".toList = some (some (.raw 0x80000000))
    ∧ parseLine "; nothing".toList = some none := by decide
theorem test_hash_expands :
    (AsmItem.hash [0x61, 0x62, 0x63]).words 0 = [0x10000000, 0x20000061, 0x20000062, 0x20000063, 0x30000000] := by decide

/-! ## Witnesses: a concrete state and operands that meet the hypotheses of each statement, clause by clause -/

/-- No RESET is chosen in these moves. -/
theorem noReset_agents : noReset [.host, .engine, .host] := by intro a; cases a <;> decide
theorem noReset_nil : noReset [] := by intro a; cases a <;> decide

theorem witness_DecodeOfEncodeGivesTheCommandBack :
    Instr.wf (.rdhex 63) = true ∧ Instr.wf (.rdhex 64) = false := by decide
theorem witness_EncodeOfDecodeGivesTheWordBack : decode 0x7000003f = .ok (.rdhex 63) := by decide
theorem witness_MatchAndMaskSelectTheCommand :
    (⟨"RDWORD", 0x50000000, 0xFFFFFFF8⟩ : OpcodeRow) ∈ opcodeMap
    ∧ OpcodeRow.matches ⟨"RDWORD", 0x50000000, 0xFFFFFFF8⟩ 0x50000007 = true := by decide
theorem witness_StepPerformsThePresentedCommand_host :
    let s := { abcRunning with cmds := [0x40000000], sched := [.host] }
    s.cmds = 0x40000000 :: [] ∧ accepted s 0x40000000 = true ∧ decode 0x40000000 = .ok .rdstat
    ∧ s.sched = .host :: [] := by decide
theorem witness_StepPerformsThePresentedCommand_idle :
    let s := { abc with cmds := [0x30000000] }
    s.cmds = 0x30000000 :: [] ∧ accepted s 0x30000000 = true ∧ decode 0x30000000 = .ok .final
    ∧ s.busy = false ∧ s.sched = [] := by decide
theorem witness_StepPerformsThePresentedCommand_engine :
    let s := { abc with cmds := [0x30000000], sched := [.engine] }
    s.cmds = 0x30000000 :: [] ∧ accepted s 0x30000000 = true ∧ decode 0x30000000 = .ok .final
    ∧ s.busy = false ∧ s.sched = .engine :: [] := by decide
theorem witness_EngineStepsByItself :
    engineEnabled { abcRunning with sched := [.engine] } = true
    ∧ engineEnabled { abcRunning with sched := [.host] } = true
    ∧ hostEnabled { abcRunning with sched := [.host] } = false
    ∧ engineEnabled { abcRunning with cmds := [0x00000000] } = true
    ∧ hostEnabled { abcRunning with cmds := [0x00000000] } = true := by decide
theorem witness_AcceptedWordGetsOneResponseHeldWordNone :
    (let s := { abcRunning with cmds := [0x40000000], sched := [.host] };
      s.cmds = 0x40000000 :: [] ∧ s.sched = .host :: [] ∧ (s.busy = false ∨ (0x40000000 : Word) = 0x40000000))
    ∧ (let s := { abcRunning with cmds := [0x80000000], sched := [.host] };
      s.cmds = 0x80000000 :: [] ∧ s.sched = .host :: []
      ∧ ¬(s.busy = false ∨ (0x80000000 : Word) = 0x00000000 ∨ (0x80000000 : Word) = 0x40000000)) := by decide
theorem witness_IllegalWordSetsOnlyTheIllFlag :
    (let s := { abc with cmds := [0x50000008], sched := [.host] };
      s.cmds = 0x50000008 :: [] ∧ legal 0x50000008 = false ∧ s.sched = .host :: [] ∧ s.busy = false)
    ∧ (let s := { abcRunning with cmds := [0x50000008], sched := [.host] };
      s.cmds = 0x50000008 :: [] ∧ legal 0x50000008 = false ∧ s.sched = .host :: [] ∧ s.busy = true) := by decide
theorem witness_ResetSetsEveryElement :
    { abcRunning with sched := [.reset true] }.sched = .reset true :: []
    ∧ { abcDone with sched := [.reset false] }.sched = .reset false :: [] := by decide
theorem witness_NopAnswersZeroAndChangesNothing :
    ((0x0fffffff : Word).extractLsb' 28 4 = 0 ∧ (0x0fffffff : Word) ≠ 0)
    ∧ exec .nop abcRunning = .next (respond 0 abcRunning) := ⟨by decide, rfl⟩
theorem witness_InitStartsANewMessage : abcDone.busy = false := by decide
theorem witness_AbsorbAppendsOneByte :
    (abcDone.busy = false ∧ abcDone.phase ≠ .absorb)
    ∧ (full.busy = false ∧ full.phase = .absorb ∧ full.len = 2 ^ 61 - 1)
    ∧ ((fed 63).busy = false ∧ (fed 63).phase = .absorb ∧ (fed 63).len ≠ 2 ^ 61 - 1 ∧ (fed 63).bufcnt < 64)
    ∧ ((fed 0).busy = false ∧ (fed 0).phase = .absorb ∧ (fed 0).len ≠ 2 ^ 61 - 1 ∧ (fed 0).bufcnt < 64) := by decide
theorem witness_FinalPadsAndStartsTheEngine :
    (abcDone.busy = false ∧ abcDone.phase ≠ .absorb)
    ∧ ((fed 55).busy = false ∧ (fed 55).phase = .absorb ∧ (fed 55).bufcnt = 55)
    ∧ ((fed 56).busy = false ∧ (fed 56).phase = .absorb ∧ (fed 56).bufcnt = 56)
    ∧ ((fed 63).busy = false ∧ (fed 63).phase = .absorb ∧ (fed 63).bufcnt < 64)
    ∧ (let s := { full with len := 2 ^ 61 - 9, bufcnt := 55 };
      s.busy = false ∧ s.phase = .absorb ∧ s.bufcnt ≤ 55 ∧ s.len ≤ Config.maxLen) := by decide
theorem witness_LengthFieldIsBigEndian :
    full.len ≤ Config.maxLen ∧ (fed 55).len ≤ Config.maxLen ∧ (fed 55).bufcnt ≤ 55 ∧ (fed 55).busy = false
    ∧ (fed 55).phase = .absorb := by decide
theorem witness_RdstatAnswersStatus : abcRunning.Inv ∧ abcRunning.busy = true := by decide
theorem witness_RdwordAnswersTheHashWord :
    (abcDone.busy = false ∧ (7 : Byte).toNat < 8) ∧ (abcDone.busy = false ∧ 8 ≤ (8 : Byte).toNat)
    ∧ abcRunning.busy = true := by decide
theorem witness_RdbyteAnswersTheDigestByte :
    (abcDone.busy = false ∧ (31 : Byte).toNat < 32) ∧ (abcDone.busy = false ∧ 32 ≤ (32 : Byte).toNat)
    ∧ abcRunning.busy = true := by decide
theorem witness_RdhexAnswersTheDigestCharacter :
    (abcDone.busy = false ∧ (63 : Byte).toNat < 64) ∧ (abcDone.busy = false ∧ 64 ≤ (64 : Byte).toNat)
    ∧ abcRunning.busy = true := by decide
theorem witness_ReadsOfAllWidthsAgree : abcDone.busy = false ∧ 0 < 8 ∧ 7 < 8 ∧ 0 < 32 ∧ 31 < 32 := by decide
theorem witness_DigestStringIsLowercaseHexAndExact :
    ∀ i : Fin 64, digestChar abcHash i = digestChar abcDone.h i := fun _ => rfl
theorem witness_ReadsHaveNoEffectAndRepeat :
    Instr.quiet (.rdbyte 31) = true ∧ Instr.wf (.rdbyte 31) = true ∧ accepted abcDone (encode (.rdbyte 31)) = true
    ∧ Instr.quiet .rdstat = true ∧ accepted abcRunning (encode .rdstat) = true := by decide
theorem witness_PreprocessorWritesOnlyItsOwnState :
    exec .final abc = .next (padAndStart abc) ∧ exec (.absorb 0x61) (fed 63) = .next (absorbByte 0x61 (fed 63))
    ∧ exec .final abcRunning = .next abcRunning := ⟨rfl, rfl, rfl⟩
/-- A command out of phase, and one that overflows. -/
theorem witness_PreprocessorWritesOnlyItsOwnState_errors :
    (exec .final abcDone = .next (raise .seq abcDone) ∧ abcDone.phase ≠ .absorb)
    ∧ (exec (.absorb 0x61) full = .next (raise .ovf full)
      ∧ full.phase = .absorb ∧ Instr.absorb 0x61 ≠ .final ∧ full.len = Config.maxLen) :=
  ⟨⟨rfl, by decide⟩, ⟨rfl, rfl, by decide, rfl⟩⟩
theorem witness_HeldCommandChangesNothing : abcRunning.busy = true ∧ accepted abcRunning (encode .final) = false := by
  decide
theorem witness_MessageCommandOutOfPhaseSetsOnlySeq :
    (abcDone.busy = false ∧ abcDone.phase = .done)
    ∧ ({ full with phase := .error, eOvf := true }.busy = false
      ∧ { full with phase := .error, eOvf := true }.phase = .error) := by decide
theorem witness_AbsorbAtMaxLenOverflows :
    (full.busy = false ∧ full.phase = .absorb ∧ full.len = 2 ^ 61 - 1)
    ∧ (let s := { full with len := 2 ^ 61 - 2, bufcnt := 62 };
      s.busy = false ∧ s.phase = .absorb ∧ s.len < 2 ^ 61 - 1) := by decide
theorem witness_OneErrorPerCommandInPriorityOrder :
    (full.busy = false ∧ perform 0x20000100 full = .next (raise .ill full) ∧ legal 0x20000100 = false)
    ∧ (abcDone.busy = false ∧ perform 0x20000000 abcDone = .next (raise .seq abcDone) ∧ legal 0x20000000 = true
      ∧ (0x20000000 : Word) ≠ 0x10000000 ∧ (0x20000000 : Word).extractLsb' 28 4 = 2 ∧ abcDone.phase ≠ .absorb)
    ∧ (perform 0x20000000 full = .next (raise .ovf full) ∧ full.phase = .absorb ∧ full.len = Config.maxLen) :=
  ⟨⟨rfl, rfl, rfl⟩, ⟨rfl, rfl, rfl, by decide, rfl, by decide⟩, ⟨rfl, rfl, rfl⟩⟩
/-- Words that raise nothing: INIT, a read, FINAL in phase ABSORB, and ABSORB one byte below the limit. -/
theorem witness_OneErrorPerCommandInPriorityOrder_none :
    perform 0x10000000 abcDone = .next (respond 0 (startMessage abcDone))
    ∧ (perform 0x50000007 abcDone = .next (respond abcDone.h[7] abcDone) ∧ legal 0x50000007 = true)
    ∧ (perform 0x30000000 full = .next (padAndStart full) ∧ legal 0x30000000 = true ∧ full.phase = .absorb)
    ∧ (let s := { full with len := 2 ^ 61 - 2, bufcnt := 62 };
      perform 0x20000061 s = .next (absorbByte 0x61 s) ∧ s.busy = false ∧ s.len ≠ Config.maxLen) :=
  ⟨rfl, ⟨rfl, rfl⟩, ⟨rfl, rfl, rfl⟩, ⟨rfl, rfl, by decide⟩⟩
/-- An illegal word sets `e_ill`, and leaves `e_seq`, which was set, as it was. -/
theorem witness_ErrorFlagsAreStickyAndSetByTheirErrors :
    let s := { abcDone with eSeq := true, cmds := [0x80000000], sched := [.host] }
    step s = .next { s with eIll := true, cmds := [], sched := [], rsps := [0] } ∧ ¬ resetTaken s
    ∧ errFlag .seq s = true ∧ errFlag .ill s = false := by
  refine ⟨rfl, ?_, rfl, rfl⟩
  rintro ⟨again, ms, h⟩
  cases h
/-- The three ways a phase changes: INIT, the last ACCUM, the overflow. -/
theorem witness_PhaseChangesOnlyAsStated :
    (let s := { abcDone with cmds := [0x10000000] };
      s.Inv ∧ (nextOf (step s)).map State.phase = some .absorb ∧ s.phase = .done)
    ∧ (let s := { running .accum 64 0 .last with len := 3 };
      s.Inv ∧ (nextOf (step s)).map State.phase = some .done ∧ s.phase = .absorb)
    ∧ (let s := { full with cmds := [0x20000000] };
      s.Inv ∧ (nextOf (step s)).map State.phase = some .error ∧ s.phase = .absorb) :=
  ⟨⟨by decide, by decide, rfl⟩, ⟨by decide, by decide, rfl⟩, ⟨by decide, by decide, rfl⟩⟩
/-- A step that leaves `H`, one that loads the IV and one that accumulates. -/
theorem witness_HashStateWrittenOnlyByInitResetAccum :
    (nextOf (step { abcDone with cmds := [0x50000000] })).map State.h = some abcHash
    ∧ (nextOf (step { abcDone with cmds := [0x10000000] })).map State.h = some iv
    ∧ (nextOf (step (running .accum 64 0 .last))).map State.h = some iv := by decide
theorem witness_RoundConstantsAreNeverWritten :
    (nextOf (step { abcDone with sched := [.reset false] })).map State.k = some roundConstants := by decide
theorem witness_NoErrorIsRaisedWhileBusy :
    let s := { abcRunning with cmds := [0x80000000], sched := [.host] }
    s.busy = true ∧ step s = .next (engineStep { s with sched := [] }) ∧ ¬ resetTaken s := by
  refine ⟨rfl, rfl, ?_⟩
  rintro ⟨again, ms, h⟩
  cases h
theorem witness_LoadCopiesBlockAndHash : abcRunning.busy = true ∧ abcRunning.estep = .load := by decide
/-- Both clauses of the schedule word, at the two ends of each: `t = 0`, 15, 16 and 63. -/
theorem witness_RoundComputesScheduleWordAndRegisters :
    ∀ t ∈ [0, 15, 16, 63], (running .round t 0 .last).busy = true ∧ (running .round t 0 .last).estep = .round
      ∧ (running .round t 0 .last).t < 64 := by decide
theorem witness_AccumAddsAndGoesOn :
    ∀ f ∈ [FinState.none, .pad2, .last], (running .accum 64 0 f).busy = true ∧ (running .accum 64 0 f).estep = .accum
      ∧ (running .accum 64 0 f).fin = f ∧ (running .accum 64 0 f).len ≤ Config.maxLen := by decide
/-- From LOAD, with and without a second padding block. -/
theorem witness_BlockTakesSixtySixMicroSteps :
    ∀ f ∈ [FinState.last, .pad2], (running .load 0 64 f).busy = true ∧ (running .load 0 64 f).estep = .load
      ∧ (running .load 0 64 f).fin = f := by decide
theorem witness_HashStateIsNotWrittenDuringTheRounds : abcRunning.busy = true ∧ abcRunning.estep = .load := by decide
theorem witness_BlockMicroStepsCompress : abcRunning.busy = true ∧ abcRunning.estep = .load := by decide
/-- In each of the ENGINE's states, and idle. -/
theorem witness_EveryStepKeepsTheInvariant :
    ∀ s ∈ [State.reset, abcRunning, running .round 63 0 .last, running .accum 64 0 .none, full, abcDone],
      s.Inv ∧ (nextOf (step s)).isSome = true := by decide
theorem witness_ReachableStatesMeetR38 : Reachable State.reset := ⟨[], [], 0, 0, rfl⟩
theorem witness_HeldWordIsAcceptedWithin132Steps :
    let s := { running .load 0 64 .pad2 with len := 56, cmds := [0x50000000], sched := [.host, .engine, .host] }
    s.Inv ∧ s.cmds = 0x50000000 :: [] ∧ accepted s 0x50000000 = false ∧ noReset s.sched :=
  ⟨by decide, by decide, by decide, noReset_agents⟩
theorem witness_PaddedStreamIsTheFourSteps : (List.replicate 55 (0x61 : Byte)).length ≤ Config.maxLen := by decide
theorem witness_PaddingBoundaries : 1 ≤ 56 ∧ 56 % 64 = 56 := by decide
/-- One byte, with an RDSTAT before it and a read after FINAL. -/
theorem witness_presentsMessage :
    presentsMessage [0x61]
      { State.reset with cmds := [0x40000000, 0x20000061, 0x30000000, 0x50000007], sched := [.host, .engine, .host] } :=
  ⟨by decide, noReset_agents, rfl, rfl, [.rdstat, .absorb 0x61, .final, .rdword 7], by decide, by decide, by decide⟩
theorem witness_LoadsReadThePaddedMessage :
    ∃ s, presentsMessage [0x61] s := ⟨_, witness_presentsMessage⟩
theorem witness_MessageIsHashed : ∃ s, presentsMessage [0x61] s := ⟨_, witness_presentsMessage⟩
theorem witness_HashThenReadAnswersTheDigestString :
    let s := { abcDone with cmds := (AsmItem.hash [0x61]).words 0 ++ AsmItem.rdDigestHex.words 0 }
    ([0x61] : List Byte).length ≤ Config.maxLen ∧ s.Inv ∧ s.busy = false ∧ noReset s.sched :=
  ⟨by decide, by decide, by decide, noReset_nil⟩
/-- A run that has ended: INIT, then nothing more. -/
theorem witness_TwoAgentRunsAgreeWithTheAtomicForm :
    let s := { abcDone with cmds := [0x10000000] }
    s.Inv ∧ s.busy = false ∧ noReset s.sched
    ∧ Sys2Proof.core.run 1 s = .next (respond 0 (startMessage { s with cmds := [] }))
    ∧ (respond 0 (startMessage { s with cmds := [] })).runEnded = true :=
  ⟨by decide, by decide, noReset_nil, rfl, by decide⟩
theorem witness_CoresDoNotInteract : (Platform.reset 2).cores[0] = State.reset ∧ (0 : Fin 2) ≠ 1 := by decide
/-- The edges the statement tells apart: RESET, a command alone, a command with a micro-step, a micro-step alone, none. -/
theorem witness_ClockEdgeIsAtMostTwoSteps :
    let idle : Clocked := ⟨abc, 0, []⟩
    let busy : Clocked := ⟨abcRunning, 0, []⟩
    idle.accepts ⟨true, true, 0x40000000⟩ = false
    ∧ (idle.accepts ⟨false, true, 0x30000000⟩ = true ∧ idle.stepDue 1 = false)
    ∧ (busy.accepts ⟨false, true, 0x40000000⟩ = true ∧ busy.stepDue 1 = true)
    ∧ (busy.accepts ⟨false, true, 0x30000000⟩ = false ∧ busy.stepDue 1 = true)
    ∧ (busy.accepts ⟨false, false, 0x40000000⟩ = false ∧ busy.stepDue 2 = false) := by decide
/-- An edge with RESET, and one with an accepted RDSTAT beside the LOAD. -/
theorem test_clock_edges :
    (Clocked.edge 1 ⟨abcRunning, 0, []⟩ ⟨true, true, 0x40000000⟩).block.block = State.reset
    ∧ (let c := Clocked.edge 1 ⟨abcRunning, 0, []⟩ ⟨false, true, 0x40000000⟩;
      c.block.rsps = [0x00000301] ∧ c.block.estep = .round) := by decide
theorem witness_ResponseComesAfterTheLatency :
    (Clocked.reset 2).pipe = List.replicate 2 none
    ∧ 0 + 2 < [(⟨false, true, 0x50000000⟩ : PortInputs), ⟨false, false, 0⟩, ⟨false, false, 0⟩].length
    ∧ 1 < 2 := by decide

end Sys2Proof.Machine
end

/-! PROOFS of the statements of 10_state.md, with the facts they need: the decoder as the inverse of the encoder, what
a step does to the error flags and to the round constants, and the invariant under each operation. -/

/-! ## The decoder -/

namespace Sys2Proof

/-- The opcode map (30_encoding.md R68) names each command by its own opcode and operand. -/
theorem commandOf_opcode_operand (i : Instr) : commandOf i.opcode i.operand = some i := by
  cases i <;> rfl

/-- The command an opcode names has that opcode, and the operand field where it takes one. -/
theorem opcode_operand_of_commandOf {op : BitVec 4} {opd : Byte} {i : Instr} (h : commandOf op opd = some i) :
    i.opcode = op ∧ i.operand = if i.takesOperand then opd else 0 := by
  unfold commandOf at h
  split at h
  case h_9 => cases h
  all_goals
    rename_i code
    cases h
    exact ⟨BitVec.eq_of_toNat_eq code.symm, rfl⟩

/-- All that a word which decodes has passed (30_encoding.md R66, R69). -/
theorem decode_eq_ok_iff {w : Word} {i : Instr} :
    decode w = .ok i ↔
      commandOf (opOf w) (opdOf w) = some i ∧ rsvOf w = 0 ∧ i.wf = true ∧ (i.takesOperand = true ∨ opdOf w = 0) := by
  unfold decode
  cases commandOf (opOf w) (opdOf w) with
  | none => simp
  | some j =>
    simp only [Option.some.injEq, ne_eq, ite_not, Bool.and_eq_true, Bool.or_eq_true, beq_iff_eq]
    split
    · split
      · constructor
        · rintro ⟨rfl⟩; exact ⟨rfl, ‹_›, ‹_›⟩
        · rintro ⟨rfl, -⟩; rfl
      · simp only [reduceCtorEq, false_iff]
        rintro ⟨rfl, -, ok⟩
        exact absurd ok ‹_›
    · simp only [reduceCtorEq, false_iff]
      rintro ⟨-, rsv, -⟩
      exact absurd rsv ‹_›

/-- A word that decodes is the word of its command. -/
theorem encode_of_decode_ok {w : Word} {i : Instr} (h : decode w = .ok i) : encode i = w := by
  obtain ⟨command, rsv, -, operand⟩ := decode_eq_ok_iff.mp h
  obtain ⟨code, opd⟩ := opcode_operand_of_commandOf command
  have same : i.operand = opdOf w := by
    rw [opd]
    split
    · rfl
    · exact (operand.resolve_left ‹_›).symm
  rw [encode, code, same, ← rsv, packFields_fields]

/-- A word that decodes has its operand in range. -/
theorem wf_of_decode_ok {w : Word} {i : Instr} (h : decode w = .ok i) : i.wf = true :=
  (decode_eq_ok_iff.mp h).2.2.1

/-- A well-formed command comes back from its word. -/
theorem decode_encode_of_wf {i : Instr} (wf : i.wf = true) : decode (encode i) = .ok i := by
  have fields : Laws.EncodeFields.Statement i := by simp [Laws.EncodeFields.Statement, encode]
  obtain ⟨code, rsv, opd⟩ := fields
  refine decode_eq_ok_iff.mpr ⟨by rw [code, opd, commandOf_opcode_operand], rsv, wf, ?_⟩
  rw [opd]
  cases i <;> simp [Instr.takesOperand, Instr.operand]

/-- A legal word (30_encoding.md R69) is the word of a well-formed command. -/
theorem exists_encode_of_legal {w : Word} (h : legal w = true) : ∃ i : Instr, i.wf = true ∧ encode i = w := by
  rw [← packFields_fields w] at h ⊢
  generalize opOf w = op, rsvOf w = rsv, opdOf w = opd at h ⊢
  obtain ⟨rfl, ⟨rfl, rfl⟩ | ⟨rfl, rfl⟩ | rfl | ⟨rfl, rfl⟩ | ⟨rfl, rfl⟩ | ⟨rfl, lt⟩ | ⟨rfl, lt⟩ | ⟨rfl, lt⟩⟩ :=
    (legal_packFields op rsv opd).mp h
  · exact ⟨.nop, rfl, rfl⟩
  · exact ⟨.init, rfl, rfl⟩
  · exact ⟨.absorb opd, rfl, rfl⟩
  · exact ⟨.final, rfl, rfl⟩
  · exact ⟨.rdstat, rfl, rfl⟩
  · exact ⟨.rdword opd, decide_eq_true lt, rfl⟩
  · exact ⟨.rdbyte opd, decide_eq_true lt, rfl⟩
  · exact ⟨.rdhex opd, decide_eq_true lt, rfl⟩

/-- A word the decoder refuses is illegal (30_encoding.md R69, R70). -/
theorem legal_of_decode_error {w : Word} {r : Reject} (h : decode w = .error r) : legal w = false := by
  by_contra legal
  obtain ⟨i, wf, rfl⟩ := exists_encode_of_legal (by simpa using legal)
  simp [decode_encode_of_wf wf] at h

end Sys2Proof

/-! ## STATUS -/

namespace Sys2Proof.Machine

/-- A field of one bit is that bit. -/
theorem extractLsb'_one_eq_ofBool {n : Nat} (x : BitVec n) (i : Nat) :
    x.extractLsb' i 1 = BitVec.ofBool (x.getLsbD i) := by
  ext j hj
  obtain rfl : j = 0 := by omega
  simp

/-- The code of a phase has two bits. -/
theorem phaseCode_getLsbD_of_two_le (p : Phase) {i : Nat} (hi : 2 ≤ i) : (phaseCode p).getLsbD i = false :=
  BitVec.getLsbD_of_ge _ i hi

/-- LENLO has six bits. -/
theorem lenlo_testBit_of_six_le (len : Nat) {i : Nat} (hi : 6 ≤ i) : (len % 64).testBit i = false := by
  have small : len % 64 < 2 ^ 6 := Nat.mod_lt len (by decide)
  exact Nat.testBit_lt_two_pow (small.trans_le (Nat.pow_le_pow_right (by decide) hi))

/-- STATUS.PHASE (10_state.md R33) is the code of the phase. -/
theorem status_phase (s : State) : (status s).extractLsb' 1 2 = phaseCode s.phase := by
  ext i hi
  rw [BitVec.getElem_extractLsb', status_bit s _ (by omega)]
  obtain rfl | rfl : i = 0 ∨ i = 1 := by omega
  · simp
  · simp

/-- STATUS.LENLO (10_state.md R33) is `len` modulo 64. -/
theorem status_lenlo (s : State) : (status s).extractLsb' 8 6 = BitVec.ofNat 6 (s.len % 64) := by
  ext i hi
  rw [BitVec.getElem_extractLsb', status_bit s _ (by omega), phaseCode_getLsbD_of_two_le _ (by omega)]
  have off (k : Nat) (hk : k < 8) : 8 + i ≠ k := by omega
  simp [off, ← BitVec.getLsbD_eq_getElem, BitVec.getLsbD_ofNat, hi]

/-- The top 18 bits of STATUS (10_state.md R33) are 0. -/
theorem status_top (s : State) : (status s).extractLsb' 14 18 = 0 := by
  ext i hi
  rw [BitVec.getElem_extractLsb', status_bit s _ (by omega), phaseCode_getLsbD_of_two_le _ (by omega),
    lenlo_testBit_of_six_le _ (by omega)]
  have off (k : Nat) (hk : k < 14) : 14 + i ≠ k := by omega
  simp [off]

/-- Settles O20: the fields of one bit by `status_bit`, the others by their own lemmas. -/
theorem statusFieldsAreAsLaidOut : Obligations.StatusFieldsAreAsLaidOut := by
  refine ⟨by decide, fun s => ?_⟩
  refine ⟨?_, ?_, ?_, ?_, ?_, ?_, ?_, ?_, status_top s⟩
  case refine_2 => rw [status_phase]; cases s.phase <;> rfl
  case refine_8 => rw [status_lenlo, BitVec.toNat_ofNat]; exact Nat.mod_eq_of_lt (Nat.mod_lt _ (by decide))
  all_goals
    rw [extractLsb'_one_eq_ofBool, status_bit s _ (by decide)]
    simp

/-! ## Error flags -/

theorem errFlag_raise (e e' : Err) (s : State) : errFlag e' (raise e s) = (decide (e' = e) || errFlag e' s) := by
  cases e' <;> simp [errFlag, eq_comm]

theorem errFlag_startMessage (e : Err) (s : State) : errFlag e (startMessage s) = false := by
  cases e <;> rfl

theorem errFlag_withWorld (e : Err) (s : State) (cmds rsps : List Word) (sched : List Move) (tick : Nat) :
    errFlag e (s.withWorld cmds rsps sched tick) = errFlag e s := by
  cases e <;> rfl

theorem errFlag_engineStep (e : Err) (s : State) : errFlag e (engineStep s) = errFlag e s := by
  obtain ⟨-, -, -, -, -, -, ovf, ill, seq⟩ := engineStep_keeps s
  cases e
  · exact ovf
  · exact ill
  · exact seq

/-- The error condition of a presented word (60_exceptions.md R146 to R148). -/
def errCause (e : Err) (w : Word) (s : State) : Prop :=
  match e with
  | .ill => legal w = false
  | .seq => s.phase ≠ .absorb ∧ (w = encode .final ∨ ∃ b, w = encode (.absorb b))
  | .ovf => s.phase = .absorb ∧ s.len = Config.maxLen ∧ ∃ b, w = encode (.absorb b)

/-- All a performed word can do to the error flags (10_state.md R34): keep all of them, clear all of them if it is
INIT, or raise the one error whose condition holds. -/
inductive FlagCase (w : Word) (s t : State) : Prop
  | kept (same : ∀ e, errFlag e t = errFlag e s)
  | cleared (isInit : w = encode .init) (clear : ∀ e, errFlag e t = false)
  | raised (e : Err) (idle : s.busy = false) (cause : errCause e w s)
      (flags : ∀ e', errFlag e' t = (decide (e' = e) || errFlag e' s))

/-- What a word did to the flags is the same from any world. -/
theorem FlagCase.of_withWorld {w : Word} {s t : State} (cmds rsps : List Word) (sched : List Move) (tick : Nat)
    (c : FlagCase w (s.withWorld cmds rsps sched tick) t) : FlagCase w s t := by
  obtain same | ⟨isInit, clear⟩ | ⟨e, idle, cause, flags⟩ := c
  · exact .kept fun e => (same e).trans (errFlag_withWorld ..)
  · exact .cleared isInit clear
  · exact .raised e idle cause fun e' => by rw [flags, errFlag_withWorld]

/-- A well-formed command raises at most one error, of which its word is the cause. -/
theorem ExecCase.flagCase {i : Instr} {s t : State} (c : ExecCase i s t) (wf : i.wf = true) :
    FlagCase (encode i) s t := by
  cases c with
  | held => exact .kept fun _ => rfl
  | answered => exact .kept fun e => by cases e <;> rfl
  | raisedIll _ _ illFormed => rw [wf] at illFormed; cases illFormed
  | raisedSeq idle which phase =>
    refine .raised .seq idle ⟨phase, ?_⟩ fun e => errFlag_raise _ e s
    obtain rfl | ⟨b, rfl⟩ := which
    · exact .inl rfl
    · exact .inr ⟨b, rfl⟩
  | raisedOvf b idle which phase full =>
    exact .raised .ovf idle ⟨phase, full, b, congrArg encode which⟩ fun e => errFlag_raise _ e s
  | initialised _ which => exact .cleared (congrArg encode which) fun e => by cases e <;> rfl
  | absorbed b => exact .kept fun e => by cases e <;> simp [errFlag]
  | padded => exact .kept fun e => by cases e <;> rfl

/-- A command leaves the world's words to the HOST. -/
theorem ExecCase.cmds {i : Instr} {s t : State} (c : ExecCase i s t) : t.cmds = s.cmds := by
  cases c <;> simp

/-- The ENGINE is idle where an illegal word is accepted (60_exceptions.md R153). -/
theorem idle_of_accepted_illegal {s : State} {w : Word} {r : Reject} (may : accepted s w = true)
    (bad : decode w = .error r) : s.busy = false := by
  obtain idle | rfl | rfl := (accepted_iff s w).mp may
  · exact idle
  · cases (show decode 0x00000000 = .ok .nop by decide).symm.trans bad
  · cases (show decode 0x40000000 = .ok .rdstat by decide).symm.trans bad

/-- All a step without RESET can do to the error flags: it keeps them, or performs a word that does what
`FlagCase` says. -/
theorem step_flagCase {s t : State} (h : step s = .next t) (nr : ¬ resetTaken s) :
    (∀ e, errFlag e t = errFlag e s) ∨ ∃ w, wordPerformed w s t ∧ FlagCase w s t := by
  cases stepCase_of_next h with
  | reset again ms chosen => exact absurd ⟨again, ms, chosen⟩ nr
  | illegal w ws r n presented may bad =>
    refine .inr ⟨w, ⟨by simpa using presented, may⟩, .of_withWorld ws s.rsps s.sched.tail n ?_⟩
    exact .raised .ill (idle_of_accepted_illegal may bad) (legal_of_decode_error bad) fun e => errFlag_raise _ e _
  | command w ws i n t presented may isCommand does =>
    have c := execCase_of_next does
    refine .inr ⟨w, ⟨by rw [c.cmds, presented], may⟩, .of_withWorld ws s.rsps s.sched.tail n ?_⟩
    rw [← encode_of_decode_ok isCommand]
    exact c.flagCase (wf_of_decode_ok isCommand)
  | engine n =>
    exact .inl fun e => (errFlag_engineStep e _).trans (errFlag_withWorld e s s.cmds s.rsps s.sched.tail n)

/-- Settles O32: by the cases of `step_flagCase`, of which only INIT clears and only `raised` sets. -/
theorem errorFlagsAreStickyAndSetByTheirErrors : Obligations.ErrorFlagsAreStickyAndSetByTheirErrors := by
  intro s t h nr
  obtain same | ⟨w, performed, same | ⟨isInit, clear⟩ | ⟨e₀, idle, cause, flags⟩⟩ := step_flagCase h nr
  · exact ⟨fun e set => .inl (by rw [same, set]), fun e off on => by simp [same, off] at on⟩
  · exact ⟨fun e set => .inl (by rw [same, set]), fun e off on => by simp [same, off] at on⟩
  · exact ⟨fun e set => .inr (isInit ▸ performed), fun e off on => by simp [clear] at on⟩
  · refine ⟨fun e set => .inl (by simp [flags, set]), fun e off on => ?_⟩
    obtain rfl : e = e₀ := by simpa [flags, off] using on
    exact ⟨fun e' ne => by simp [flags, ne], w, performed, idle, by cases e <;> exact cause⟩

/-! ## Round constants -/

theorem ExecCase.k {i : Instr} {s t : State} (c : ExecCase i s t) : t.k = s.k := by
  cases c <;> simp

/-- Settles O35: by the cases of a step, each of which keeps `K`. -/
theorem roundConstantsAreNeverWritten : Obligations.RoundConstantsAreNeverWritten := by
  refine ⟨rfl, fun s t h => ?_⟩
  cases stepCase_of_next h with
  | reset again ms chosen => rfl
  | illegal w ws r n presented may bad => exact raise_k _ _
  | command w ws i n t presented may isCommand does => exact (execCase_of_next does).k
  | engine n =>
    obtain ⟨-, -, -, -, k, -⟩ := engineStep_keeps { s with sched := s.sched.tail, tick := n }
    exact k

/-! ## Reset and INIT -/

theorem exec_init_idle {s : State} (idle : s.busy = false) : exec .init s = .next (respond 0 (startMessage s)) :=
  whenIdle_idle _ idle

/-- Starting a message leaves the block as RESET does (10_state.md R40), `K` apart. -/
theorem startMessage_block (s : State) : (startMessage s).block = { State.reset.block with k := s.k } := rfl

/-- Settles O13: the reset values as `State.reset` has them; `startMessage` gives the same. -/
theorem resetStateHasTheResetValues : Obligations.ResetStateHasTheResetValues := by
  refine ⟨rfl, fun i => Vector.getElem_replicate i.isLt, fun i => Vector.getElem_replicate i.isLt, rfl,
    fun i => Vector.getElem_replicate i.isLt, rfl, rfl, rfl, rfl, rfl, rfl, rfl, rfl, rfl, rfl, by decide, ?_, ?_⟩
  · exact fun w => (accepted_iff _ w).mpr (.inl rfl)
  · exact fun s idle => ⟨_, exec_init_idle idle, startMessage_block s⟩

/-! ## Several cores -/

/-- A step always answers a next state (60_exceptions.md R150, 41_compression.md R118). -/
theorem step_next (s : State) : ∃ t, step s = .next t := by
  cases c : s.sched with
  | nil =>
    simp only [step, c, stepFree]
    split
    · exact turn_next _ _
    · exact turn_next _ _
  | cons m ms =>
    cases m with
    | host => rw [step_host c]; exact turn_next _ _
    | engine => rw [step_engine c]; exact turn_next _ _
    | reset again => exact ⟨_, step_reset c⟩

theorem stepCore_of_step {n : Nat} {p : Platform n} {i : Fin n} {t : State} (h : step p.cores[i] = .next t) :
    p.stepCore i = .next ⟨p.cores.set i t⟩ := by
  simp only [Platform.stepCore, h]

/-- Settles O57: `step_next` gives the core's own step, and `Vector.set` writes no other core. -/
theorem coresDoNotInteract : Obligations.CoresDoNotInteract := by
  intro n p i
  obtain ⟨t, h⟩ := step_next p.cores[i]
  refine ⟨_, stepCore_of_step h, h.trans (congrArg _ ?_), fun j ne => ?_⟩
  · exact (Vector.getElem_set_self i.isLt).symm
  · exact Vector.getElem_set_ne i.isLt j.isLt fun e => ne (Fin.ext e.symm)

/-! ## The invariant -/

theorem State.Inv.k_eq {s : State} (inv : s.Inv) : s.k = roundConstants := by
  obtain ⟨k, -⟩ := inv
  exact k

theorem State.Inv.len_le {s : State} (inv : s.Inv) : s.len ≤ Config.maxLen := by
  obtain ⟨-, len, -⟩ := inv
  exact len

theorem State.Inv.idle {s : State} (inv : s.Inv) (idle : s.busy = false) :
    s.estep = .idle ∧ s.fin = .none ∧ s.t = 0 := by
  obtain ⟨-, -, h, -⟩ := inv
  exact h idle

theorem State.Inv.running {s : State} (inv : s.Inv) (busy : s.busy = true) : s.estep ≠ .idle ∧ s.phase = .absorb := by
  obtain ⟨-, -, -, h, -⟩ := inv
  exact h busy

theorem State.Inv.bufcnt_idle {s : State} (inv : s.Inv) (idle : s.busy = false) (notDone : s.phase ≠ .done) :
    s.bufcnt = s.len % 64 := by
  obtain ⟨-, -, -, -, h, -⟩ := inv
  exact h idle notDone

theorem State.Inv.bufcnt_done {s : State} (inv : s.Inv) (done : s.phase = .done) : s.bufcnt = 0 := by
  obtain ⟨-, -, -, -, -, h, -⟩ := inv
  exact h done

theorem State.Inv.at_load {s : State} (inv : s.Inv) (load : s.estep = .load) : s.bufcnt = 64 ∧ s.t = 0 := by
  obtain ⟨-, -, -, -, -, -, -, h, -⟩ := inv
  exact h load

theorem State.Inv.at_round {s : State} (inv : s.Inv) (round : s.estep = .round) : s.bufcnt = 0 ∧ s.t ≤ 63 := by
  obtain ⟨-, -, -, -, -, -, -, -, h, -⟩ := inv
  exact h round

theorem State.Inv.at_accum {s : State} (inv : s.Inv) (accum : s.estep = .accum) : s.bufcnt = 0 ∧ s.t = 64 := by
  obtain ⟨-, -, -, -, -, -, -, -, -, h, -⟩ := inv
  exact h accum

/-- The invariant speaks of the block alone. -/
theorem inv_withWorld (s : State) (cmds rsps : List Word) (sched : List Move) (tick : Nat) :
    (s.withWorld cmds rsps sched tick).Inv ↔ s.Inv := Iff.rfl

/-- A new message begins in the invariant. -/
theorem inv_startMessage {s : State} (k : s.k = roundConstants) : (startMessage s).Inv := by
  simp [State.Inv, k]

theorem inv_respond {r : Word} {s : State} : (respond r s).Inv ↔ s.Inv := Iff.rfl

/-- E_ILL and E_SEQ write no element the invariant speaks of. -/
theorem inv_raise {e : Err} {s : State} (inv : s.Inv) (notOvf : e ≠ .ovf) : (raise e s).Inv := by
  cases e with
  | ovf => exact absurd rfl notOvf
  | ill => exact inv
  | seq => exact inv

/-- E_OVF leaves an idle block in phase ERROR, with its fill count. -/
theorem inv_raise_ovf {s : State} (inv : s.Inv) (idle : s.busy = false) (phase : s.phase = .absorb) :
    (raise .ovf s).Inv := by
  obtain ⟨estep, fin, t⟩ := inv.idle idle
  simp_all [State.Inv]

/-- ABSORB of one byte: the byte that fills the block starts the ENGINE. -/
theorem inv_absorbByte {b : Byte} {s : State} (inv : s.Inv) (idle : s.busy = false) (phase : s.phase = .absorb)
    (room : s.len ≠ Config.maxLen) : (absorbByte b s).Inv := by
  obtain ⟨estep, fin, t⟩ := inv.idle idle
  have cnt : s.bufcnt = s.len % 64 := inv.bufcnt_idle idle (by simp [phase])
  have len : s.len + 1 ≤ Config.maxLen := Nat.lt_of_le_of_ne inv.len_le room
  by_cases full : s.bufcnt = 63
  · have : (s.len + 1) % 64 = 0 := by omega
    simp_all [State.Inv]
  · have : s.bufcnt + 1 = (s.len + 1) % 64 := by omega
    simp_all [State.Inv]

/-- FINAL: two blocks are due exactly where the length field does not fit. -/
theorem inv_padAndStart {s : State} (inv : s.Inv) (idle : s.busy = false) (phase : s.phase = .absorb) :
    (padAndStart s).Inv := by
  obtain ⟨estep, fin, t⟩ := inv.idle idle
  have cnt : s.bufcnt = s.len % 64 := inv.bufcnt_idle idle (by simp [phase])
  by_cases fits : lengthFits s = true
  · simp_all [State.Inv]
  · have : 56 ≤ s.len % 64 := by
      simp only [lengthFits, decide_eq_true_eq] at fits
      omega
    simp_all [State.Inv]

theorem inv_loadStep {s : State} (inv : s.Inv) (busy : s.busy = true) : (loadStep s).Inv := by
  obtain ⟨estep, phase⟩ := inv.running busy
  simp_all [State.Inv]

/-- ROUND: the round of index 63 is followed by ACCUM. -/
theorem inv_roundStep {s : State} (inv : s.Inv) (busy : s.busy = true) (at' : s.estep = .round) (lt : s.t < 64) :
    (roundStep ⟨s.t, lt⟩ s).Inv := by
  obtain ⟨estep, phase⟩ := inv.running busy
  by_cases last : s.t = 63
  · simp_all [State.Inv]
  · have : s.t + 1 ≤ 63 := by omega
    simp_all [State.Inv]

/-- ACCUM: the ENGINE stops, or goes on with the length-only block. -/
theorem inv_accumStep {s : State} (inv : s.Inv) (busy : s.busy = true) (at' : s.estep = .accum) :
    (accumStep s).Inv := by
  obtain ⟨estep, phase⟩ := inv.running busy
  cases fin : s.fin with
  | none => rw [accumStep_none fin]; simp_all [State.Inv]
  | pad2 => rw [accumStep_pad2 fin]; simp_all [State.Inv]
  | last => rw [accumStep_last fin]; simp_all [State.Inv]

theorem ExecCase.inv {i : Instr} {s t : State} (c : ExecCase i s t) (inv : s.Inv) : t.Inv := by
  cases c with
  | held => exact inv
  | answered => exact inv_respond.mpr inv
  | raisedIll => exact inv_raise inv (by decide)
  | raisedSeq => exact inv_raise inv (by decide)
  | raisedOvf b idle which phase => exact inv_raise_ovf inv idle phase
  | initialised => exact inv_respond.mpr (inv_startMessage inv.k_eq)
  | absorbed b idle which phase room => exact inv_absorbByte inv idle phase room
  | padded idle which phase => exact inv_padAndStart inv idle phase

theorem inv_engineStep {s : State} (inv : s.Inv) : (engineStep s).Inv := by
  have c := engineCase s
  generalize engineStep s = t at c ⊢
  cases c with
  | none => exact inv
  | load busy => exact inv_loadStep inv busy
  | round busy at' lt => exact inv_roundStep inv busy at' lt
  | accum busy at' => exact inv_accumStep inv busy at'

/-- Every step keeps the invariant, whoever moves. -/
theorem inv_step {s t : State} (inv : s.Inv) (h : step s = .next t) : t.Inv := by
  have world (cmds : List Word) (n : Nat) : (s.withWorld cmds s.rsps s.sched.tail n).Inv :=
    (inv_withWorld ..).mpr inv
  cases stepCase_of_next h with
  | reset => exact (inv_withWorld ..).mpr (inv_startMessage inv.k_eq)
  | illegal w ws r n => exact inv_raise (world ws n) (by decide)
  | command w ws i n t presented may isCommand does => exact (execCase_of_next does).inv (world ws n)
  | engine n => exact inv_engineStep (world s.cmds n)

/-- The invariant holds after RESET, in any world. -/
theorem inv_resetWith (cmds : List Word) (sched : List Move) (tick : Nat) : (resetWith cmds sched tick).Inv :=
  inv_startMessage (s := resetWith cmds sched tick) rfl

/-- A property that every step keeps holds at the end of every run. -/
theorem run_preserves {P : State → Prop} (keeps : ∀ s t, P s → step s = .next t → P t) {n : Nat} {s t : State}
    (start : P s) (h : Sys2Proof.core.run n s = .next t) : P t := by
  induction n generalizing s with
  | zero => cases h; exact start
  | succ n ih =>
    obtain ⟨u, e⟩ := step_next s
    rw [run_succ n e] at h
    exact ih (keeps s u start e) h

theorem Reachable.inv {s : State} (h : Reachable s) : s.Inv := by
  obtain ⟨cmds, sched, tick, n, run⟩ := h
  exact run_preserves (fun _ _ => inv_step) (inv_resetWith cmds sched tick) run

/-- The invariant has the clauses of 10_state.md R38. -/
theorem State.Inv.r38 {s : State} (inv : s.Inv) : s.R38 := by
  cases busy : s.busy with
  | false =>
    obtain ⟨estep, fin, t⟩ := inv.idle busy
    simp_all [State.R38]
  | true =>
    obtain ⟨estep, phase⟩ := inv.running busy
    simp_all [State.R38]

/-- The invariant bounds the three counters (10_state.md R20). -/
theorem State.Inv.widths {s : State} (inv : s.Inv) : s.widths := by
  suffices counters : s.bufcnt ≤ 64 ∧ s.t ≤ 64 from ⟨counters.1, inv.len_le, counters.2⟩
  cases busy : s.busy with
  | false =>
    obtain ⟨-, -, t⟩ := inv.idle busy
    refine ⟨?_, by omega⟩
    by_cases done : s.phase = .done
    · have := inv.bufcnt_done done
      omega
    · have := inv.bufcnt_idle busy done
      omega
  | true =>
    cases at' : s.estep with
    | idle => exact absurd at' (inv.running busy).1
    | load => have := inv.at_load at'; omega
    | round => have := inv.at_round at'; omega
    | accum => have := inv.at_accum at'; omega

/-- Settles O48: the invariant holds in every reachable state, and has R38 and the widths as consequences. -/
theorem reachableStatesMeetR38 : Obligations.ReachableStatesMeetR38 :=
  fun _ h => ⟨h.inv.r38, h.inv.widths⟩

end Sys2Proof.Machine

/-! PROOFS of the statements of 20_memory.md: the byte order of the length field and of the digest reads. -/

namespace Sys2Proof.Machine

/-- Four adjacent bytes of a value, the most significant first, are its 32-bit slice (00_scope.md R11). -/
theorem be32_adjacent_bytes {n : Nat} (x : BitVec n) (i : Nat) :
    be32 (x.extractLsb' (i + 24) 8) (x.extractLsb' (i + 16) 8) (x.extractLsb' (i + 8) 8) (x.extractLsb' i 8)
      = x.extractLsb' i 32 := by
  have join (start len : Nat) :
      x.extractLsb' (start + 8) len ++ x.extractLsb' start 8 = x.extractLsb' start (len + 8) :=
    BitVec.extractLsb'_append_extractLsb'_eq_extractLsb' rfl
  rw [be32, join (i + 16) 8, join (i + 8) 16, join i 24, BitVec.cast_eq]

/-! ## The length field -/

/-- The bytes 56 to 63 of a block are the length field of `len` (20_memory.md R47). -/
def carriesLength (buf : Vector Byte 64) (len : Nat) : Prop :=
  ∀ j : Fin 8, buf[56 + j.val] = lengthByte len j

theorem carriesLength_lengthOnlyBuf (len : Nat) : carriesLength (lengthOnlyBuf len) len :=
  fun j => by simp [lengthOnlyBuf]

/-- FINAL's buffer carries the length where the length field fits behind the `0x80` byte. -/
theorem carriesLength_paddedBuf {s : State} (fits : lengthFits s = true) : carriesLength (paddedBuf s) s.len := by
  intro j
  have room : s.bufcnt + 1 ≤ 56 := of_decide_eq_true fits
  have notData : ¬ 56 + j.val < s.bufcnt := by omega
  have notMark : 56 + j.val ≠ s.bufcnt := by omega
  simp [paddedBuf, fits, notData, notMark]

theorem blockWord_14_of_carriesLength {buf : Vector Byte 64} {len : Nat} (h : carriesLength buf len) :
    blockWord buf 14 = (BitVec.ofNat 64 (8 * len)).extractLsb' 32 32 :=
  calc blockWord buf 14
    _ = be32 (lengthByte len 0) (lengthByte len 1) (lengthByte len 2) (lengthByte len 3) := by
      rw [← h 0, ← h 1, ← h 2, ← h 3]; rfl
    _ = (BitVec.ofNat 64 (8 * len)).extractLsb' 32 32 := be32_adjacent_bytes _ 32

theorem blockWord_15_of_carriesLength {buf : Vector Byte 64} {len : Nat} (h : carriesLength buf len) :
    blockWord buf 15 = (BitVec.ofNat 64 (8 * len)).extractLsb' 0 32 :=
  calc blockWord buf 15
    _ = be32 (lengthByte len 4) (lengthByte len 5) (lengthByte len 6) (lengthByte len 7) := by
      rw [← h 4, ← h 5, ← h 6, ← h 7]; rfl
    _ = (BitVec.ofNat 64 (8 * len)).extractLsb' 0 32 := be32_adjacent_bytes _ 0

/-- Block words 14 and 15 are the halves of the bit length, which fits 64 bits up to MAXLEN (00_scope.md R7). -/
theorem length_words_of_carriesLength {buf : Vector Byte 64} {len : Nat} (h : carriesLength buf len)
    (le : len ≤ Config.maxLen) :
    (blockWord buf 14).toNat = 8 * len / 2 ^ 32 ∧ (blockWord buf 15).toNat = 8 * len % 2 ^ 32 := by
  have bound : 8 * len < 2 ^ 64 := by
    unfold Config.maxLen at le
    omega
  rw [blockWord_14_of_carriesLength h, blockWord_15_of_carriesLength h]
  simp only [BitVec.extractLsb'_toNat, BitVec.toNat_ofNat, Nat.mod_eq_of_lt bound, Nat.shiftRight_eq_div_pow]
  omega

theorem exec_final_absorb {s : State} (idle : s.busy = false) (phase : s.phase = .absorb) :
    exec .final s = .next (padAndStart s) := by
  have at' : exec .final s = .next (if s.phase ≠ .absorb then raise .seq s else padAndStart s) := whenIdle_idle _ idle
  rw [at', if_neg (not_not_intro phase)]

/-- Settles O18: both buffers carry the length, and `length_words_of_carriesLength` reads it. -/
theorem lengthFieldIsBigEndian : Obligations.LengthFieldIsBigEndian := by
  refine fun s le => ⟨length_words_of_carriesLength (carriesLength_lengthOnlyBuf _) le, fun cnt idle phase => ?_⟩
  have fits : lengthFits s = true := decide_eq_true (Nat.succ_le_succ cnt)
  exact ⟨_, exec_final_absorb idle phase, length_words_of_carriesLength (carriesLength_paddedBuf fits) le⟩

/-! ## The reads -/

/-- A read of an index in range answers what it selects (20_memory.md R48). -/
theorem readIndexed_of_toNat_eq {n : Nat} {opd : Byte} {i : Fin n} (read : Fin n → Word) (s : State)
    (h : opd.toNat = i.val) : readIndexed n opd read s = respond (read i) s := by
  obtain ⟨lt, e⟩ | ⟨ge, -⟩ := readIndexed_cases n opd read s
  · rw [e, show (⟨opd.toNat, lt⟩ : Fin n) = i from Fin.ext h]
  · omega

theorem exec_rdword_idle {s : State} {opd : Byte} {k : Fin 8} (idle : s.busy = false) (h : opd.toNat = k.val) :
    exec (.rdword opd) s = .next (respond s.h[k] s) :=
  (whenIdle_idle _ idle).trans (congrArg _ (readIndexed_of_toNat_eq _ s h))

theorem exec_rdbyte_idle {s : State} {opd : Byte} {i : Fin 32} (idle : s.busy = false) (h : opd.toNat = i.val) :
    exec (.rdbyte opd) s = .next (respond ((digestByte s.h i).setWidth 32) s) :=
  (whenIdle_idle _ idle).trans (congrArg _ (readIndexed_of_toNat_eq _ s h))

theorem exec_rdhex_idle {s : State} {opd : Byte} {i : Fin 64} (idle : s.busy = false) (h : opd.toNat = i.val) :
    exec (.rdhex opd) s = .next (respond ((hexchar (digestNibble s.h i)).setWidth 32) s) :=
  (whenIdle_idle _ idle).trans (congrArg _ (readIndexed_of_toNat_eq _ s h))

/-- A number below 256 as an operand is that number. -/
theorem toNat_ofNat_eight {i : Nat} (h : i < 256) : (BitVec.ofNat 8 i).toNat = i :=
  (BitVec.toNat_ofNat i 8).trans (Nat.mod_eq_of_lt h)

/-- Digest byte `4k + j` lies in hash-state word `k`, the byte of `j = 0` on top (20_memory.md R48). -/
theorem digestByte_four_mul_add (h : Vector Word 8) {k j : Nat} (hk : k < 8) (hj : j < 4) :
    digestByte h ⟨4 * k + j, by omega⟩ = h[k].extractLsb' (24 - 8 * j) 8 := by
  have word : (4 * k + j) / 4 = k := by omega
  have place : (4 * k + j) % 4 = j := by omega
  simp only [digestByte, word, place]

/-- A hash-state word is its four digest bytes, the first on top (20_memory.md R49). -/
theorem be32_digestBytes (h : Vector Word 8) {k : Nat} (hk : k < 8) :
    be32 (digestByte h ⟨4 * k, by omega⟩) (digestByte h ⟨4 * k + 1, by omega⟩) (digestByte h ⟨4 * k + 2, by omega⟩)
      (digestByte h ⟨4 * k + 3, by omega⟩) = h[k] := by
  have first : digestByte h ⟨4 * k, by omega⟩ = h[k].extractLsb' 24 8 :=
    digestByte_four_mul_add h hk (j := 0) (by decide)
  rw [first, digestByte_four_mul_add h hk (j := 1) (by decide), digestByte_four_mul_add h hk (j := 2) (by decide),
    digestByte_four_mul_add h hk (j := 3) (by decide)]
  exact (be32_adjacent_bytes h[k] 0).trans BitVec.extractLsb'_eq_self

/-- A slice inside a slice is a slice of the whole. -/
theorem extractLsb'_extractLsb'_of_le {n : Nat} (x : BitVec n) {i j w v : Nat} (h : j + v ≤ w) :
    (x.extractLsb' i w).extractLsb' j v = x.extractLsb' (i + j) v := by
  ext l hl
  have inside : j + l < w := by omega
  simp [inside, Nat.add_assoc]

/-- The high nibble of a digest byte comes first (20_memory.md R49). -/
theorem digestByte_high_nibble (h : Vector Word 8) {m : Nat} (hm : m < 32) :
    (digestByte h ⟨m, hm⟩).extractLsb' 4 4 = digestNibble h ⟨2 * m, by omega⟩ := by
  have word : 2 * m / 8 = m / 4 := by omega
  have place : 24 - 8 * (m % 4) + 4 = 28 - 4 * (2 * m % 8) := by omega
  simp only [digestByte, digestNibble, word, ← place, extractLsb'_extractLsb'_of_le _ (show 4 + 4 ≤ 8 by decide)]

/-- The low nibble of a digest byte comes second (20_memory.md R49). -/
theorem digestByte_low_nibble (h : Vector Word 8) {m : Nat} (hm : m < 32) :
    (digestByte h ⟨m, hm⟩).extractLsb' 0 4 = digestNibble h ⟨2 * m + 1, by omega⟩ := by
  have word : (2 * m + 1) / 8 = m / 4 := by omega
  have place : 24 - 8 * (m % 4) + 0 = 28 - 4 * ((2 * m + 1) % 8) := by omega
  simp only [digestByte, digestNibble, word, ← place, extractLsb'_extractLsb'_of_le _ (show 0 + 4 ≤ 8 by decide)]

/-- Settles O24: what the reads answer, with the bytes of a word and the nibbles of a byte. -/
theorem readsOfAllWidthsAgree : Obligations.ReadsOfAllWidthsAgree := by
  intro s idle
  have byte (i : Nat) (hi : i < 32) : exec (.rdbyte (BitVec.ofNat 8 i)) s =
      .next (respond ((digestByte s.h ⟨i, hi⟩).setWidth 32) s) := exec_rdbyte_idle idle (toNat_ofNat_eight (by omega))
  have hex (i : Nat) (hi : i < 64) : exec (.rdhex (BitVec.ofNat 8 i)) s =
      .next (respond ((hexchar (digestNibble s.h ⟨i, hi⟩)).setWidth 32) s) :=
    exec_rdhex_idle idle (toNat_ofNat_eight (by omega))
  constructor
  · intro k hk
    have word : exec (.rdword (BitVec.ofNat 8 k)) s = .next (respond s.h[k] s) :=
      exec_rdword_idle (k := ⟨k, hk⟩) idle (toNat_ofNat_eight (by omega))
    exact ⟨_, _, _, _, _, word, byte _ _, byte _ _, byte _ _, byte _ _, (be32_digestBytes s.h hk).symm⟩
  · intro m hm
    refine ⟨_, byte m hm, ?_⟩
    rw [digestByte_high_nibble, digestByte_low_nibble]
    exact ⟨hex _ _, hex _ _⟩

end Sys2Proof.Machine

/-! PROOFS of the statements of 30_encoding.md: the rows of the opcode map as the rows of the commands, and the legal
words as the words of the well-formed commands. -/

namespace Sys2Proof

/-! ## The row of a command -/

/-- The operand bits a command requires to be 0 (30_encoding.md R66). -/
def Instr.operandMask : Instr → Byte
  | .nop => 0xFF
  | .init => 0xFF
  | .absorb _ => 0x00
  | .final => 0xFF
  | .rdstat => 0xFF
  | .rdword _ => 0xF8
  | .rdbyte _ => 0xE0
  | .rdhex _ => 0xC0

/-- The row of the opcode map (30_encoding.md R68) a command belongs to, by its fields; `row_mem_opcodeMap` ties it to
the map. -/
def Instr.row (i : Instr) : OpcodeRow := ⟨i.mnemonic, packFields i.opcode 0 0, packFields 0xF 0xFFFFF i.operandMask⟩

theorem row_mem_opcodeMap (i : Instr) : i.row ∈ opcodeMap := by
  cases i with
  | nop | init | final | rdstat => decide
  | absorb => exact (show (Instr.absorb 0).row ∈ opcodeMap by decide)
  | rdword => exact (show (Instr.rdword 0).row ∈ opcodeMap by decide)
  | rdbyte => exact (show (Instr.rdbyte 0).row ∈ opcodeMap by decide)
  | rdhex => exact (show (Instr.rdhex 0).row ∈ opcodeMap by decide)

theorem operand_and_operandMask_eq_zero_iff (i : Instr) : i.operand &&& i.operandMask = 0 ↔ i.wf = true := by
  cases i with
  | nop | init | final | rdstat => decide
  | absorb b => exact iff_of_true BitVec.and_zero rfl
  | rdword k => exact (and_F8_eq_zero k).trans decide_eq_true_iff.symm
  | rdbyte k => exact (and_E0_eq_zero k).trans decide_eq_true_iff.symm
  | rdhex k => exact (and_C0_eq_zero k).trans decide_eq_true_iff.symm

/-- The word of a command matches the command's row exactly when the command is well formed. -/
theorem row_matches_encode_iff (i : Instr) : i.row.matches (encode i) = true ↔ i.wf = true := by
  rw [OpcodeRow.matches, beq_iff_eq, encode, Instr.row, packFields_and_mask, operand_and_operandMask_eq_zero_iff]
  simp

/-! ## The rows are disjoint -/

/-- Every mask keeps the opcode, so a word that matches a row has the row's opcode. -/
theorem opOf_of_matches {r : OpcodeRow} {w : Word} (mem : r ∈ opcodeMap) (h : r.matches w = true) :
    opOf w = opOf r.pattern := by
  have keeps : opOf r.mask = BitVec.allOnes 4 := (show ∀ r ∈ opcodeMap, opOf r.mask = BitVec.allOnes 4 by decide) r mem
  have masked : opOf (w &&& r.mask) = opOf w &&& opOf r.mask := BitVec.extractLsb'_and
  rw [← beq_iff_eq.mp h, masked, keeps, BitVec.and_allOnes]

/-- No word is two commands (30_encoding.md R68): the rows have different opcodes. -/
theorem row_unique {r r' : OpcodeRow} {w : Word} (mem : r ∈ opcodeMap) (mem' : r' ∈ opcodeMap)
    (h : r.matches w = true) (h' : r'.matches w = true) : r = r' :=
  (show ∀ r ∈ opcodeMap, ∀ r' ∈ opcodeMap, opOf r.pattern = opOf r'.pattern → r = r' by decide) r mem r' mem'
    ((opOf_of_matches mem h).symm.trans (opOf_of_matches mem' h'))

theorem row_eq_of_mnemonic_eq {r : OpcodeRow} {i : Instr} (mem : r ∈ opcodeMap) (h : i.mnemonic = r.mnemonic) :
    i.row = r :=
  (show ∀ r ∈ opcodeMap, ∀ r' ∈ opcodeMap, r.mnemonic = r'.mnemonic → r = r' by decide) _ (row_mem_opcodeMap i) r mem h

/-! ## Legal words -/

/-- `legal` (30_encoding.md R69) compares with the rows in order. -/
theorem legal_iff_matches (w : Word) : legal w = true ↔ ∃ r ∈ opcodeMap, r.matches w = true := by
  have whole : w &&& 0xFFFFFFFF#32 = w := BitVec.and_allOnes
  simp [legal, opcodeMap, OpcodeRow.matches, whole, or_assoc]

/-- The legal words are the words of the well-formed commands. -/
theorem legal_iff_exists_encode {w : Word} : legal w = true ↔ ∃ i : Instr, i.wf = true ∧ encode i = w := by
  refine ⟨exists_encode_of_legal, ?_⟩
  rintro ⟨i, wf, rfl⟩
  exact (legal_iff_matches _).mpr ⟨i.row, row_mem_opcodeMap i, (row_matches_encode_iff i).mpr wf⟩

theorem legal_iff_decode {w : Word} : legal w = true ↔ ∃ i, decode w = .ok i := by
  rw [legal_iff_exists_encode]
  constructor
  · rintro ⟨i, wf, rfl⟩
    exact ⟨i, decode_encode_of_wf wf⟩
  · rintro ⟨i, h⟩
    exact ⟨i, wf_of_decode_ok h, encode_of_decode_ok h⟩

/-- Settles O4: both sides are the words of the well-formed commands. -/
theorem legalWordsAreTheTableWords : Obligations.LegalWordsAreTheTableWords :=
  ⟨legal_iff_matches, fun _ => legal_iff_decode⟩

/-! ## Match and mask -/

/-- A word that decodes matches the row of its command. -/
theorem row_matches_of_decode_ok {w : Word} {i : Instr} (h : decode w = .ok i) : i.row.matches w = true :=
  encode_of_decode_ok h ▸ (row_matches_encode_iff i).mpr (wf_of_decode_ok h)

/-- A word that decodes has its command's operand as the field `opd` (30_encoding.md R65). -/
theorem operand_of_decode_ok {w : Word} {i : Instr} (h : decode w = .ok i) : i.operand = opdOf w := by
  rw [← encode_of_decode_ok h, encode, opdOf_packFields]

/-- A word matches a row exactly when it decodes to a command of the row's mnemonic. -/
theorem matches_iff_decode {r : OpcodeRow} {w : Word} (mem : r ∈ opcodeMap) :
    r.matches w = true ↔ ∃ i, decode w = .ok i ∧ i.mnemonic = r.mnemonic := by
  constructor
  · intro h
    obtain ⟨i, hi⟩ := legal_iff_decode.mp ((legal_iff_matches w).mpr ⟨r, mem, h⟩)
    have same : i.row = r := row_unique (row_mem_opcodeMap i) mem (row_matches_of_decode_ok hi) h
    exact ⟨i, hi, congrArg OpcodeRow.mnemonic same⟩
  · rintro ⟨i, hi, name⟩
    exact row_eq_of_mnemonic_eq mem name ▸ row_matches_of_decode_ok hi

/-- The opcodes 0x8 to 0xF name no command (30_encoding.md R68). -/
theorem commandOf_eq_none_of_eight_le {op : BitVec 4} (opd : Byte) (h : 8 ≤ op.toNat) : commandOf op opd = none := by
  unfold commandOf
  split
  case h_9 => rfl
  all_goals omega

/-- Settles O3: a word that matches a row is legal, hence decodes, and the rows are disjoint. -/
theorem matchAndMaskSelectTheCommand : Obligations.MatchAndMaskSelectTheCommand := by
  refine ⟨fun r mem w => ?_, rfl, fun w r mem r' mem' => row_unique mem mem', fun w reserved => ?_⟩
  · rw [← beq_iff_eq, ← OpcodeRow.matches, matches_iff_decode mem]
    exact exists_congr fun i => and_congr_right fun h => (and_iff_left fun _ => operand_of_decode_ok h).symm
  · have noCommand : commandOf (opOf w) (opdOf w) = none := commandOf_eq_none_of_eight_le _ reserved
    rw [decode, noCommand]

/-! ## The number of legal words -/

/-- A command's word has its opcode and its operand, which name the command (30_encoding.md R68). -/
theorem encode_injective : Function.Injective encode := by
  intro i j same
  obtain ⟨code, -, opd⟩ := packFields_inj.mp same
  rw [← Option.some_inj, ← commandOf_opcode_operand i, code, opd, commandOf_opcode_operand]

/-- The operands below `n`. -/
def operandsBelow (n : Nat) : List Byte := (List.range n).map (BitVec.ofNat 8)

theorem mem_operandsBelow {n : Nat} (hn : n ≤ 256) (b : Byte) : b ∈ operandsBelow n ↔ b.toNat < n := by
  simp only [operandsBelow, List.mem_map, List.mem_range]
  constructor
  · rintro ⟨k, hk, rfl⟩
    rwa [Machine.toNat_ofNat_eight (by omega)]
  · exact fun h => ⟨b.toNat, h, by rw [BitVec.ofNat_toNat, BitVec.setWidth_eq]⟩

theorem nodup_operandsBelow {n : Nat} (hn : n ≤ 256) : (operandsBelow n).Nodup := by
  refine List.Nodup.map_on (fun j hj k hk same => ?_) List.nodup_range
  rw [List.mem_range] at hj hk
  rw [← Machine.toNat_ofNat_eight (i := j) (by omega), same, Machine.toNat_ofNat_eight (by omega)]

/-- The well-formed commands: four without an operand, and those of each operand range (30_encoding.md R66). -/
def wellFormedCommands : List Instr :=
  [.nop, .init, .final, .rdstat] ++ (operandsBelow 256).map .absorb ++ (operandsBelow 8).map .rdword
    ++ (operandsBelow 32).map .rdbyte ++ (operandsBelow 64).map .rdhex

theorem mem_wellFormedCommands (i : Instr) : i ∈ wellFormedCommands ↔ i.wf = true := by
  cases i with
  | nop | init | final | rdstat => exact iff_of_true (by simp [wellFormedCommands]) rfl
  | absorb b => simpa [wellFormedCommands, mem_operandsBelow, Instr.wf] using b.isLt
  | rdword | rdbyte | rdhex => simp [wellFormedCommands, mem_operandsBelow, Instr.wf]

/-- Commands of different constructors differ, and each constructor is injective in its operand. -/
theorem nodup_wellFormedCommands : wellFormedCommands.Nodup := by
  have parts {n : Nat} {f : Byte → Instr} (hn : n ≤ 256) (hf : Function.Injective f) :
      ((operandsBelow n).map f).Nodup := (nodup_operandsBelow hn).map hf
  have absorb := parts (n := 256) (f := .absorb) (by decide) fun _ _ => Instr.absorb.inj
  have rdword := parts (n := 8) (f := .rdword) (by decide) fun _ _ => Instr.rdword.inj
  have rdbyte := parts (n := 32) (f := .rdbyte) (by decide) fun _ _ => Instr.rdbyte.inj
  have rdhex := parts (n := 64) (f := .rdhex) (by decide) fun _ _ => Instr.rdhex.inj
  simp [wellFormedCommands, List.nodup_append', List.disjoint_left, absorb, rdword, rdbyte, rdhex]

theorem length_wellFormedCommands : wellFormedCommands.length = 364 := by
  simp [wellFormedCommands, operandsBelow]

/-- Settles O5: the legal words are the words of the well-formed commands, 4 + 256 + 8 + 32 + 64 of them. -/
theorem exactly364WordsAreLegal : Obligations.Exactly364WordsAreLegal := by
  refine ⟨wellFormedCommands.map encode, nodup_wellFormedCommands.map encode_injective, ?_, fun w => ?_⟩
  · rw [List.length_map, length_wellFormedCommands]
  · simp only [List.mem_map, mem_wellFormedCommands, legal_iff_exists_encode]

end Sys2Proof

/-! PROOFS of the statements of 40_preprocessor.md: the padding in bits and in bytes, ABSORB and FINAL, and the blocks
that the LOADs read. -/

namespace Sys2Proof.Machine

/-! ## The padding in bits -/

@[simp] theorem length_byteBits (b : Byte) : (byteBits b).length = 8 := by
  simp [byteBits]

theorem length_flatMap_byteBits (l : List Byte) : (l.flatMap byteBits).length = 8 * l.length := by
  simp [List.length_flatMap, Nat.mul_comm]

/-- Step 3 of R80: `zeroBits` zero bits reach 448 modulo 512 and, with byte input, are 7 more than whole bytes. -/
theorem zeroBits_reaches (len : Nat) :
    (8 * len + 1 + zeroBits len) % 512 = 448 ∧ zeroBits len < 512 ∧ zeroBits len % 8 = 7 := by
  unfold zeroBits
  omega

/-- The zero bits are the 7 behind the 1 bit and the zero bytes (40_preprocessor.md R82). -/
theorem zeroBits_eq (len : Nat) : zeroBits len = 7 + 8 * zeroBytes len := by
  unfold zeroBits zeroBytes
  omega

/-- A byte's bits are those of a value that carries it at bit `k`. -/
theorem getElem?_byteBits_extractLsb' {n : Nat} (x : BitVec n) (k : Nat) {j : Nat} (hj : j < 8) :
    (byteBits (x.extractLsb' k 8))[j]? = some (x.getLsbD (k + (7 - j))) := by
  have place : 8 - 1 - j < 8 := by omega
  simp [byteBits, hj, BitVec.getMsbD, BitVec.getLsbD_extractLsb', place]

/-- Entry `8k + j` of the bits of a list of bytes is bit `j` of byte `k`. -/
theorem getElem?_flatMap_byteBits (l : List Byte) (i : Nat) :
    (l.flatMap byteBits)[i]? = (l[i / 8]?).bind fun b => (byteBits b)[i % 8]? := by
  induction l generalizing i with
  | nil => simp
  | cons b l ih =>
    rw [List.flatMap_cons]
    by_cases first : i < 8
    · rw [List.getElem?_append_left (by simpa using first)]
      simp [Nat.div_eq_of_lt first, Nat.mod_eq_of_lt first]
    · obtain ⟨k, rfl⟩ : ∃ k, i = k + 8 := ⟨i - 8, by omega⟩
      rw [List.getElem?_append_right (by simp)]
      simp [ih]

/-- The length field bit by bit, the most significant first (40_preprocessor.md R80, step 4). -/
theorem getElem?_flatMap_byteBits_be64 (v : BitVec 64) {i : Nat} (hi : i < 64) :
    ((be64 v).toList.flatMap byteBits)[i]? = some (v.getLsbD (63 - i)) := by
  have byte : i / 8 < 8 := by omega
  have place : 56 - 8 * (i / 8) + (7 - i % 8) = 63 - i := by omega
  have entry : (be64 v).toList[i / 8]? = some (v.extractLsb' (56 - 8 * (i / 8)) 8) := by
    rw [be64, toList_tabulate, List.getElem?_ofFn, dif_pos byte]; rfl
  rw [getElem?_flatMap_byteBits, entry, Option.bind_some, getElem?_byteBits_extractLsb' _ _ (by omega), place]

/-- The padded stream is whole blocks long (40_preprocessor.md R81). -/
theorem length_padBits (m : List Byte) : (padBits m).length = 512 * blockCount m.length := by
  simp only [padBits, List.length_append, length_flatMap_byteBits, List.length_replicate, List.length_cons,
    List.length_nil, Vector.length_toList, zeroBits_eq, zeroBytes, blockCount]
  omega

/-- Settles O50: `k` is `zeroBits`, which is least because the numbers below 512 have different remainders. -/
theorem paddedStreamIsTheFourSteps : Obligations.PaddedStreamIsTheFourSteps := by
  intro m le
  obtain ⟨reaches, small, seven⟩ := zeroBits_reaches m.length
  have bound : 8 * m.length < 2 ^ 64 := by
    unfold Config.maxLen at le
    omega
  refine ⟨zeroBits m.length, reaches, fun j lt => by omega, seven, ⟨_, rfl, ?_, fun i hi => ?_⟩, length_padBits m⟩
  · rw [length_flatMap_byteBits, Vector.length_toList]
  · rw [getElem?_flatMap_byteBits_be64 _ hi, BitVec.getLsbD, BitVec.toNat_ofNat, Nat.mod_eq_of_lt bound]

/-! ## The padding in bytes -/

/-- `0x80` carries the 1 bit and 7 zero bits, each zero byte 8 more (40_preprocessor.md R82). -/
theorem flatMap_byteBits_mark_zeros (z : Nat) :
    ([0x80] ++ List.replicate z 0x00 : List Byte).flatMap byteBits = [true] ++ List.replicate (7 + 8 * z) false := by
  have mark : byteBits 0x80 = [true] ++ List.replicate 7 false := by decide
  have zero : byteBits 0x00 = List.replicate 8 false := by decide
  simp only [List.flatMap_append, List.flatMap_singleton, mark, List.flatMap_replicate, zero,
    List.flatten_replicate_replicate, List.append_assoc, List.replicate_append_replicate, Nat.mul_comm z]

theorem padBits_eq_flatMap_pad (m : List Byte) : padBits m = (pad m).flatMap byteBits := by
  have middle := flatMap_byteBits_mark_zeros (zeroBytes m.length)
  rw [pad, List.append_assoc m, List.flatMap_append, List.flatMap_append, middle, padBits, zeroBits_eq,
    ← List.append_assoc]

theorem length_pad (m : List Byte) : (pad m).length = 64 * blockCount m.length := by
  simp only [pad, List.length_append, List.length_replicate, List.length_cons, List.length_nil, Vector.length_toList,
    zeroBytes, blockCount]
  omega

/-- A list read from place `k` on, `n` entries, none of them past its end. -/
theorem ofFn_getD_eq_take_drop {α : Type} (l : List α) (d : α) {k n : Nat} (h : k + n ≤ l.length) :
    (List.ofFn fun j : Fin n => l.getD (k + j.val) d) = (l.drop k).take n := by
  refine List.ext_getElem (by simp; omega) fun j hj _ => ?_
  have inside : k + j < l.length := by simp at hj; omega
  simp [inside]

/-- The first `n` blocks are the first `64n` bytes of the padded message (40_preprocessor.md R82). -/
theorem flatMap_padBlock_range (m : List Byte) {n : Nat} (h : n ≤ blockCount m.length) :
    ((List.range n).map (padBlock m)).flatMap Vector.toList = (pad m).take (64 * n) := by
  induction n with
  | zero => simp
  | succ n ih =>
    have inside : 64 * n + 64 ≤ (pad m).length := by rw [length_pad]; omega
    have block : (padBlock m n).toList = ((pad m).drop (64 * n)).take 64 := by
      rw [padBlock, toList_tabulate, ofFn_getD_eq_take_drop _ _ inside]
    rw [List.range_succ, List.map_append, List.flatMap_append, ih (by omega), Nat.mul_succ, List.take_add, ← block]
    simp

/-- Settles O51: the bytes of the padding carry its bits, and its length is that of its blocks. -/
theorem paddingInBytesIsPaddingInBits : Obligations.PaddingInBytesIsPaddingInBits := by
  refine fun m => ⟨padBits_eq_flatMap_pad m, ?_⟩
  rw [padBlocks, flatMap_padBlock_range m le_rfl, ← length_pad, List.take_length]

/-- Settles O52: by the arithmetic of `blockCount`. -/
theorem paddingBoundaries : Obligations.PaddingBoundaries := by
  refine ⟨by decide, rfl, rfl, rfl, fun len pos => ?_⟩
  unfold blockCount
  omega

/-! ## ABSORB and FINAL -/

theorem encode_absorb_toNat (b : Byte) : (encode (.absorb b)).toNat = 0x20000000 + b.toNat := by
  revert b
  decide

/-- Only NOP and RDSTAT are accepted while the ENGINE runs (70_reset_and_hazards.md R166). -/
theorem accepted_encode_of_ne {i : Instr} (s : State) (notNop : i ≠ .nop) (notRdstat : i ≠ .rdstat) :
    accepted s (encode i) = !s.busy := by
  have notWord : ¬ (encode i = 0x00000000 ∨ encode i = 0x40000000) := by
    rintro (same | same)
    · exact notNop (encode_injective same)
    · exact notRdstat (encode_injective same)
  rw [Bool.eq_iff_iff, accepted_iff, or_iff_left notWord, Bool.not_eq_true']

theorem exec_absorb_idle {s : State} (b : Byte) (idle : s.busy = false) :
    exec (.absorb b) s = .next
      (if s.phase ≠ .absorb then raise .seq s else if s.len = Config.maxLen then raise .ovf s else absorbByte b s) :=
  whenIdle_idle _ idle

theorem exec_final_idle {s : State} (idle : s.busy = false) :
    exec .final s = .next (if s.phase ≠ .absorb then raise .seq s else padAndStart s) :=
  whenIdle_idle _ idle

/-- The byte that fills the block starts the ENGINE (40_preprocessor.md R85). -/
theorem absorbByte_full {b : Byte} {s : State} (full : s.bufcnt = 63) :
    absorbByte b s = { s with
      buf := s.buf.setIfInBounds s.bufcnt b, bufcnt := 64, len := s.len + 1, rsps := s.rsps ++ [0], fin := .none,
      busy := true, estep := .load } := by
  simp [absorbByte, appendByte, respond, startEngine, full]

theorem absorbByte_room {b : Byte} {s : State} (room : s.bufcnt ≠ 63) :
    absorbByte b s = { s with
      buf := s.buf.setIfInBounds s.bufcnt b, bufcnt := s.bufcnt + 1, len := s.len + 1, rsps := s.rsps ++ [0] } := by
  simp [absorbByte, appendByte, respond, room]

/-- Settles O16: by the two tests of ABSORB and the two cases of `absorbByte`. -/
theorem absorbAppendsOneByte : Obligations.AbsorbAppendsOneByte := by
  refine fun s b => ⟨encode_absorb_toNat b, accepted_encode_of_ne s (by simp) (by simp), ?_, ?_, ?_⟩
  · intro idle phase
    rw [exec_absorb_idle b idle, if_pos phase]; rfl
  · intro idle phase (full : s.len = Config.maxLen)
    rw [exec_absorb_idle b idle, if_neg (not_not_intro phase), if_pos full]; rfl
  · intro idle phase (notFull : s.len ≠ Config.maxLen) lt
    have inside : s.buf.setIfInBounds s.bufcnt b = s.buf.set s.bufcnt b := by
      simp [Vector.setIfInBounds, Vector.set, Array.setIfInBounds, lt]
    rw [exec_absorb_idle b idle, if_neg (not_not_intro phase), if_neg notFull, ← inside]
    split
    · rw [absorbByte_full ‹_›]
    · rw [absorbByte_room ‹_›]

theorem lengthFits_iff (s : State) : lengthFits s = true ↔ s.bufcnt ≤ 55 := by
  simp [lengthFits, Nat.lt_succ_iff]

/-! FINAL's buffer byte by byte (40_preprocessor.md R86); `carriesLength_paddedBuf` has the length field. -/

theorem paddedBuf_data {s : State} {j : Nat} (hj : j < 64) (lt : j < s.bufcnt) : (paddedBuf s)[j] = s.buf[j] := by
  simp [paddedBuf, lt]

theorem paddedBuf_mark {s : State} {j : Nat} (hj : j < 64) (at' : j = s.bufcnt) : (paddedBuf s)[j] = 0x80 := by
  simp [paddedBuf, at']

theorem paddedBuf_zero {s : State} {j : Nat} (hj : j < 64) (gt : s.bufcnt < j) (notLength : 55 < s.bufcnt ∨ j < 56) :
    (paddedBuf s)[j] = 0x00 := by
  have notData : ¬ j < s.bufcnt := by omega
  have notMark : j ≠ s.bufcnt := by omega
  have noLength : ¬ (lengthFits s = true ∧ 56 ≤ j) := by rw [lengthFits_iff]; omega
  simp [paddedBuf, notData, notMark, noLength]

/-- Settles O17: by the phase test of FINAL, and the bytes of `paddedBuf`. -/
theorem finalPadsAndStartsTheEngine : Obligations.FinalPadsAndStartsTheEngine := by
  refine fun s => ⟨rfl, accepted_encode_of_ne s (by simp) (by simp), fun idle phase => ?_, fun idle phase _ => ?_⟩
  · rw [exec_final_idle idle, if_pos phase]; rfl
  · refine ⟨paddedBuf s, ?_, fun j => paddedBuf_data j.isLt, fun j => paddedBuf_mark j.isLt,
      fun j => paddedBuf_zero j.isLt, fun _ j fits ge => ?_⟩
    · rw [exec_final_absorb idle phase]
      simp [padAndStart, startEngine, respond, lengthFits_iff]
    · have byte := carriesLength_paddedBuf ((lengthFits_iff s).mpr fits) ⟨j.val - 56, by omega⟩
      have place : 56 + (j.val - 56) = j.val := by omega
      have power : 7 - (j.val - 56) = 63 - j.val := by omega
      simpa only [place, power, lengthByte_eq, Fin.getElem_fin] using byte

/-! ## The padded message byte by byte -/

theorem padBlock_getElem (m : List Byte) (n : Nat) {j : Nat} (hj : j < 64) :
    (padBlock m n)[j] = (pad m).getD (64 * n + j) 0 := by
  simp [padBlock]

theorem pad_getD_data {m : List Byte} {k : Nat} (lt : k < m.length) : (pad m).getD k 0 = m[k] := by
  simp [pad, List.getElem?_append_left, lt]

theorem pad_getD_mark {m : List Byte} {k : Nat} (at' : k = m.length) : (pad m).getD k 0 = 0x80 := by
  simp [pad, at']

/-- Behind the `0x80` come the zero bytes and the length field. -/
theorem pad_getD_behind_mark (m : List Byte) (d : Nat) :
    (pad m).getD (m.length + 1 + d) 0
      = (List.replicate (zeroBytes m.length) 0x00 ++ (be64 (BitVec.ofNat 64 (8 * m.length))).toList).getD d 0 := by
  have front : m.length + 1 + d = (m ++ [0x80]).length + d := by simp
  rw [pad, List.append_assoc (m ++ [0x80]), front, List.getD_append_right _ _ _ _ (by omega), Nat.add_sub_cancel_left]

theorem pad_getD_zero {m : List Byte} {k : Nat} (gt : m.length < k) (lt : k + 8 < 64 * blockCount m.length) :
    (pad m).getD k 0 = 0x00 := by
  obtain ⟨d, rfl⟩ : ∃ d, k = m.length + 1 + d := ⟨k - (m.length + 1), by omega⟩
  have inside : d < zeroBytes m.length := by
    unfold blockCount at lt
    unfold zeroBytes
    omega
  rw [pad_getD_behind_mark, List.getD_append _ _ _ _ (by simpa using inside)]
  simp [inside]

theorem pad_getD_length {m : List Byte} {k d : Nat} (hd : d < 8) (at' : k + 8 = 64 * blockCount m.length + d) :
    (pad m).getD k 0 = lengthByte m.length ⟨d, hd⟩ := by
  obtain rfl : k = m.length + 1 + (zeroBytes m.length + d) := by
    unfold blockCount at at'
    unfold zeroBytes
    omega
  rw [pad_getD_behind_mark, List.getD_append_right _ _ _ _ (by simp), List.length_replicate, Nat.add_sub_cancel_left,
    be64, toList_tabulate, List.getD_eq_getElem?_getD, List.getElem?_ofFn, dif_pos hd]
  rfl

/-! ## Every run ends -/

/-- The blocks the ENGINE has to build itself after the one it is at (40_preprocessor.md R87). -/
def blocksToBuild : FinState → Nat
  | .none => 0
  | .pad2 => 1
  | .last => 0

theorem blocksToBuild_le (f : FinState) : blocksToBuild f ≤ 1 := by
  cases f <;> decide

/-- How many micro-steps the ENGINE is from idle (41_compression.md R119). -/
def engineLeft (s : State) : Nat :=
  if s.busy then
    66 * blocksToBuild s.fin +
      match s.estep with
      | .idle => 0
      | .load => 66
      | .round => 65 - s.t
      | .accum => 1
  else 0

theorem engineLeft_idle {s : State} (idle : s.busy = false) : engineLeft s = 0 := by
  simp [engineLeft, idle]

theorem engineLeft_load {s : State} (busy : s.busy = true) (at' : s.estep = .load) :
    engineLeft s = 66 * blocksToBuild s.fin + 66 := by
  simp [engineLeft, busy, at']

theorem engineLeft_round {s : State} (busy : s.busy = true) (at' : s.estep = .round) :
    engineLeft s = 66 * blocksToBuild s.fin + (65 - s.t) := by
  simp [engineLeft, busy, at']

theorem engineLeft_accum {s : State} (busy : s.busy = true) (at' : s.estep = .accum) :
    engineLeft s = 66 * blocksToBuild s.fin + 1 := by
  simp [engineLeft, busy, at']

theorem engineLeft_le (s : State) : engineLeft s ≤ 132 := by
  have := blocksToBuild_le s.fin
  unfold engineLeft
  split
  · cases s.estep <;> simp only <;> omega
  · omega

/-- A micro-step brings a running ENGINE nearer to idle. -/
theorem engineLeft_engineStep_lt {s : State} (inv : s.Inv) (busy : s.busy = true) :
    engineLeft (engineStep s) < engineLeft s := by
  cases at' : s.estep with
  | idle => exact absurd at' (inv.running busy).1
  | load =>
    rw [engineStep_load busy at', engineLeft_load busy at', engineLeft_round (s := loadStep s) busy rfl]
    simp
  | round =>
    obtain ⟨-, le⟩ := inv.at_round at'
    rw [engineStep_round busy at' (by omega), engineLeft_round busy at']
    by_cases last : s.t = 63
    · rw [engineLeft_accum (s := roundStep _ s) busy (by simp [last])]
      simp [last]
    · rw [engineLeft_round (s := roundStep _ s) busy (by simp [last]), roundStep_fin, roundStep_t]
      dsimp only
      omega
  | accum =>
    rw [engineStep_accum busy at', engineLeft_accum busy at']
    cases fin : s.fin with
    | none => rw [accumStep_none fin]; simp [engineLeft]
    | pad2 => rw [accumStep_pad2 fin]; simp [engineLeft, busy, blocksToBuild]
    | last => rw [accumStep_last fin]; simp [engineLeft]

theorem performed_cmds (w : Word) (s : State) : (performed w s).cmds = s.cmds := by
  rw [performed_withWorld]
  rfl

/-- A measure that every step of a run without RESET makes smaller: a command may start at most 132 micro-steps. -/
def stepsLeft (s : State) : Nat := 133 * s.cmds.length + engineLeft s

theorem stepsLeft_lt_of_cmds {s t : State} {w : Word} (h : s.cmds = w :: t.cmds) : stepsLeft t < stepsLeft s := by
  have := engineLeft_le t
  simp only [stepsLeft, h, List.length_cons]
  omega

theorem noReset_tail {ms : List Move} (h : noReset ms) : noReset ms.tail :=
  fun again mem => h again (List.mem_of_mem_tail mem)

theorem noReset_step {s t : State} (h : step s = .next t) (nr : noReset s.sched) : noReset t.sched := by
  obtain ⟨tick, rfl⟩ | ⟨w, ws, tick, -, -, rfl⟩ := step_agents h nr
  · exact noReset_tail nr
  · exact noReset_tail nr

theorem stepsLeft_step_lt {s t : State} (inv : s.Inv) (nr : noReset s.sched) (going : s.runEnded = false)
    (h : step s = .next t) : stepsLeft t < stepsLeft s := by
  cases busy : s.busy with
  | false =>
    cases c : s.cmds with
    | nil => simp [State.runEnded, c, busy] at going
    | cons w ws =>
      rw [step_idle busy c nr, perform_eq] at h
      cases h
      exact stepsLeft_lt_of_cmds (w := w) (by rw [c, performed_cmds])
  | true =>
    obtain ⟨tick, rfl⟩ | ⟨w, ws, tick, c, -, rfl⟩ := step_agents h nr
    · exact Nat.add_lt_add_left (engineLeft_engineStep_lt inv busy) _
    · exact stepsLeft_lt_of_cmds c

/-- Whatever the interleaving, a run without RESET comes to its end (70_reset_and_hazards.md R173). -/
theorem exists_run_ended {s : State} (inv : s.Inv) (nr : noReset s.sched) :
    ∃ n t, Sys2Proof.core.run n s = .next t ∧ t.runEnded = true := by
  cases ended : s.runEnded with
  | true => exact ⟨0, s, rfl, ended⟩
  | false =>
    obtain ⟨u, h⟩ := step_next s
    have := stepsLeft_step_lt inv nr ended h
    obtain ⟨n, t, run, ended⟩ := exists_run_ended (inv_step inv h) (noReset_step h nr)
    exact ⟨n + 1, t, (run_succ n h).trans run, ended⟩
termination_by stepsLeft s

/-! ## What the LOADs read -/

/-- The block that a step from `s` to `t` reads, if it is a LOAD. -/
def blockRead (s t : State) : List (Vector Byte 64) := if s.estep = .load ∧ t.estep = .round then [s.buf] else []

theorem loadedBlocks_succ {s t : State} (n : Nat) (h : step s = .next t) :
    loadedBlocks (n + 1) s = blockRead s t ++ loadedBlocks n t := by
  simp [loadedBlocks, h, blockRead]

theorem blockRead_of_ne_load {s : State} (t : State) (h : s.estep ≠ .load) : blockRead s t = [] := by
  simp [blockRead, h]

theorem blockRead_of_estep_eq {s t : State} (h : t.estep = s.estep) : blockRead s t = [] :=
  if_neg fun ⟨load, round⟩ => by rw [h, load] at round; cases round

theorem blockRead_withWorld (s t : State) (cmds rsps : List Word) (sched : List Move) (tick : Nat) :
    blockRead s (t.withWorld cmds rsps sched tick) = blockRead s t := rfl

theorem padBlocks_drop {m : List Byte} {i : Nat} (lt : i < blockCount m.length) :
    (padBlocks m).drop i = padBlock m i :: (padBlocks m).drop (i + 1) := by
  have inside : i < (padBlocks m).length := by simpa [padBlocks] using lt
  rw [List.drop_eq_getElem_cons inside]
  simp [padBlocks]

/-- A second padding block is due where the length field does not fit (40_preprocessor.md R86). -/
theorem State.Inv.le_of_pad2 {s : State} (inv : s.Inv) (fin : s.fin = .pad2) : 56 ≤ s.len % 64 := by
  obtain ⟨-, -, -, -, -, -, -, -, -, -, -, h⟩ := inv
  exact h fin

/-- The filled part of the buffer agrees with the block `b`. -/
def State.holds (s : State) (b : Vector Byte 64) : Prop := ∀ j (hj : j < 64), j < s.bufcnt → s.buf[j] = b[j]

theorem State.holds.buf_eq {s : State} {b : Vector Byte 64} (h : s.holds b) (full : s.bufcnt = 64) : s.buf = b :=
  Vector.ext fun j hj => h j hj (by omega)

/-- ABSORB of the next message byte (40_preprocessor.md R82, R85). -/
theorem holds_absorbByte {m : List Byte} {n : Nat} {s : State} (h : s.holds (padBlock m n))
    (place : 64 * n + s.bufcnt = s.len) (lt : s.len < m.length) : (absorbByte m[s.len] s).holds (padBlock m n) := by
  intro j hj filled
  rw [absorbByte_bufcnt] at filled
  simp only [absorbByte_buf]
  by_cases new : j = s.bufcnt
  · subst new
    rw [padBlock_getElem, pad_getD_data (by omega)]
    simp [place]
  · rw [Vector.getElem_setIfInBounds_ne _ (Ne.symm new)]
    exact h j hj (by omega)

/-- FINAL writes what the padded message has behind the message (40_preprocessor.md R82, R86). -/
theorem holds_padAndStart {m : List Byte} {n : Nat} {s : State} (h : s.holds (padBlock m n)) (room : s.bufcnt < 64)
    (place : 64 * n + s.bufcnt = s.len) (all : s.len = m.length) : (padAndStart s).holds (padBlock m n) := by
  intro j hj _
  have count : blockCount m.length = n + 1 + if s.bufcnt ≤ 55 then 0 else 1 := by
    unfold blockCount
    split <;> omega
  rw [padAndStart_buf]
  obtain data | mark | behind := Nat.lt_trichotomy j s.bufcnt
  · rw [paddedBuf_data hj data, h j hj data]
  · rw [paddedBuf_mark hj mark, padBlock_getElem, pad_getD_mark (by omega)]
  · by_cases length : s.bufcnt ≤ 55 ∧ 56 ≤ j
    · obtain ⟨fits, ge⟩ := length
      obtain ⟨d, rfl⟩ : ∃ d, j = 56 + d := ⟨j - 56, by omega⟩
      rw [padBlock_getElem, pad_getD_length (d := d) (by omega) (by rw [count, if_pos fits]; omega), ← all]
      exact carriesLength_paddedBuf ((lengthFits_iff s).mpr fits) ⟨d, by omega⟩
    · rw [paddedBuf_zero hj behind (by omega), padBlock_getElem, pad_getD_zero (by omega) (by split at count <;> omega)]

/-- The length-only block is the last block of the padded message (40_preprocessor.md R87). -/
theorem lengthOnlyBuf_eq_padBlock {m : List Byte} {n : Nat} (last : n + 1 = blockCount m.length)
    (second : m.length < 64 * n) : lengthOnlyBuf m.length = padBlock m n := by
  refine Vector.ext fun j hj => ?_
  rw [padBlock_getElem]
  by_cases ge : 56 ≤ j
  · obtain ⟨d, rfl⟩ : ∃ d, j = 56 + d := ⟨j - 56, by omega⟩
    rw [pad_getD_length (d := d) (by omega) (by omega)]
    exact carriesLength_lengthOnlyBuf m.length ⟨d, by omega⟩
  · rw [pad_getD_zero (by omega) (by omega)]
    simp [lengthOnlyBuf, ge]

/-! ## The message on its way through the block -/

/-- Where the message `m` stands, with `n` blocks read and the commands `left` of `messageCommands m` to come. -/
inductive Progress (m : List Byte) (n : Nat) (s : State) (left : List Instr) : Prop
  /-- before FINAL -/
  | feeding (phase : s.phase = .absorb) (fin : s.fin = .none) (le : s.len ≤ m.length)
      (place : 64 * n + s.bufcnt = s.len) (rest : left = messageCommands (m.drop s.len))
  /-- from FINAL to the last ACCUM -/
  | closing (busy : s.busy = true) (fin : s.fin ≠ .none) (all : s.len = m.length)
      (place : 64 * n + s.bufcnt + 64 * blocksToBuild s.fin = 64 * blockCount m.length) (rest : left = [])
  | delivered (done : s.phase = .done) (all : n = blockCount m.length) (rest : left = [])

/-- The block takes in the message `m`: `n` blocks are read, and the buffer, as far as it is filled, holds the next
one. -/
structure Delivers (m : List Byte) (n : Nat) (s : State) (left : List Instr) : Prop where
  inv : s.Inv
  holds : s.holds (padBlock m n)
  progress : Progress m n s left

section Delivers

variable {m : List Byte} {n : Nat} {s : State} {left : List Instr}

theorem Delivers.withWorld (d : Delivers m n s left) (cmds rsps : List Word) (sched : List Move) (tick : Nat) :
    Delivers m n (s.withWorld cmds rsps sched tick) left := by
  obtain ⟨inv, holds, ⟨phase, fin, le, place, rest⟩ | ⟨busy, fin, all, place, rest⟩ | ⟨done, all, rest⟩⟩ := d
  · exact ⟨inv, holds, .feeding phase fin le place rest⟩
  · exact ⟨inv, holds, .closing busy fin all place rest⟩
  · exact ⟨inv, holds, .delivered done all rest⟩

/-- A message begins with nothing read and nothing in the buffer. -/
theorem delivers_startMessage (k : s.k = roundConstants) :
    Delivers m 0 (startMessage s) (messageCommands m) :=
  ⟨inv_startMessage k, fun _ _ filled => absurd filled (Nat.not_lt_zero _), .feeding rfl rfl (Nat.zero_le _) rfl rfl⟩

/-- The next command of a message: ABSORB of the next byte, or FINAL after the last one. -/
theorem messageCommands_drop_eq_cons {k : Nat} {c : Instr} {rest : List Instr} (le : k ≤ m.length)
    (h : c :: rest = messageCommands (m.drop k)) :
    (∃ lt : k < m.length, c = .absorb m[k] ∧ rest = messageCommands (m.drop (k + 1)))
      ∨ (k = m.length ∧ c = .final ∧ rest = []) := by
  obtain lt | rfl := Nat.lt_or_eq_of_le le
  · rw [List.drop_eq_getElem_cons lt] at h
    obtain ⟨rfl, rfl⟩ := List.cons.inj h
    exact .inl ⟨lt, rfl, rfl⟩
  · rw [List.drop_length] at h
    obtain ⟨rfl, rfl⟩ := List.cons.inj h
    exact .inr ⟨rfl, rfl, rfl⟩

/-- With commands of the message to come, FINAL has not been performed. -/
theorem Progress.feeding_of_cons {c : Instr} {rest : List Instr} (p : Progress m n s (c :: rest)) :
    s.phase = .absorb ∧ s.fin = .none ∧ s.len ≤ m.length ∧ 64 * n + s.bufcnt = s.len
      ∧ c :: rest = messageCommands (m.drop s.len) := by
  cases p with
  | feeding phase fin le place rest => exact ⟨phase, fin, le, place, rest⟩
  | closing _ _ _ _ rest => cases rest
  | delivered _ _ rest => cases rest

/-- An accepted quiet command answers, and does nothing else (40_preprocessor.md R88). -/
theorem exec_quiet {i : Instr} (quiet : i.quiet = true) (wf : i.wf = true)
    (may : accepted s (encode i) = true) : ∃ r, exec i s = .next (respond r s) := by
  obtain ⟨t, e, c⟩ := exec_cases i s
  cases c with
  | held busy notNop notRdstat => rw [accepted_encode_of_ne s notNop notRdstat, busy] at may; cases may
  | answered r => exact ⟨r, e⟩
  | raisedIll _ _ illFormed => rw [wf] at illFormed; cases illFormed
  | raisedSeq _ which => obtain rfl | ⟨b, rfl⟩ := which <;> cases quiet
  | raisedOvf b _ which => subst which; cases quiet
  | initialised _ which => subst which; cases quiet
  | absorbed b _ which => subst which; cases quiet
  | padded _ which => subst which; cases quiet

theorem Delivers.respond (d : Delivers m n s left) (r : Word) :
    Delivers m n (respond r s) left :=
  d.withWorld s.cmds (s.rsps ++ [r]) s.sched s.tick

/-- ABSORB takes in the next byte of the message. -/
theorem Delivers.absorbByte (d : Delivers m n s left)
    (bound : m.length ≤ Config.maxLen) (idle : s.busy = false) (phase : s.phase = .absorb) (fin : s.fin = .none)
    (place : 64 * n + s.bufcnt = s.len) (lt : s.len < m.length) :
    Delivers m n (absorbByte m[s.len] s) (messageCommands (m.drop (s.len + 1))) := by
  refine ⟨inv_absorbByte d.inv idle phase (by omega), holds_absorbByte d.holds place lt, .feeding ?_ ?_ ?_ ?_ ?_⟩
  · simpa using phase
  · simp [fin]
  · simpa using lt
  · rw [absorbByte_bufcnt, absorbByte_len]; omega
  · rw [absorbByte_len]

/-- FINAL closes the message: the length field comes in the block at hand, or in one more. -/
theorem Delivers.padAndStart (d : Delivers m n s left)
    (idle : s.busy = false) (phase : s.phase = .absorb) (place : 64 * n + s.bufcnt = s.len) (all : s.len = m.length) :
    Delivers m n (padAndStart s) [] := by
  have cnt : s.bufcnt = s.len % 64 := d.inv.bufcnt_idle idle (by simp [phase])
  have room : s.bufcnt < 64 := by omega
  refine ⟨inv_padAndStart d.inv idle phase, holds_padAndStart d.holds room place all, .closing rfl ?_ all ?_ rfl⟩
  · rw [padAndStart_fin]
    split <;> decide
  · rw [padAndStart_fin, padAndStart_bufcnt]
    by_cases fits : s.bufcnt ≤ 55
    · rw [if_pos ((lengthFits_iff s).mpr fits), blocksToBuild, blockCount]; omega
    · rw [if_neg (mt (lengthFits_iff s).mp fits), blocksToBuild, blockCount]; omega

/-- Performing an accepted command of the presented list: a quiet one, or the message's next. No block is read. -/
theorem Delivers.performed {c : Instr} {cs : List Instr} (d : Delivers m n s ((c :: cs).filter fun i => !i.quiet))
    (bound : m.length ≤ Config.maxLen) (wf : c.wf = true) (may : accepted s (encode c) = true) :
    Delivers m n (performed (encode c) s) (cs.filter fun i => !i.quiet)
      ∧ blockRead s (Machine.performed (encode c) s) = [] := by
  have isCommand := decode_encode_of_wf wf
  by_cases quiet : c.quiet = true
  · obtain ⟨r, e⟩ := exec_quiet quiet wf may
    rw [performed_ok isCommand e]
    rw [List.filter_cons_of_neg (by simp [quiet])] at d
    exact ⟨d.respond r, blockRead_of_estep_eq (respond_estep r s)⟩
  · rw [List.filter_cons_of_pos (by simp [quiet])] at d
    have idle : s.busy = false := by
      rw [accepted_encode_of_ne s (by rintro rfl; exact quiet rfl) (by rintro rfl; exact quiet rfl)] at may
      simpa using may
    obtain ⟨estep, -⟩ := d.inv.idle idle
    refine ⟨?_, blockRead_of_ne_load _ (by simp [estep])⟩
    obtain ⟨phase, fin, le, place, rest⟩ := d.progress.feeding_of_cons
    obtain ⟨lt, rfl, more⟩ | ⟨all, rfl, more⟩ := messageCommands_drop_eq_cons le rest
    · have e := exec_absorb_idle m[s.len] idle
      rw [if_neg (not_not_intro phase), if_neg (by omega)] at e
      rw [performed_ok isCommand e, more]
      exact d.absorbByte bound idle phase fin place lt
    · rw [performed_ok isCommand (exec_final_absorb idle phase), more]
      exact d.padAndStart idle phase place all

/-- LOAD reads the block at hand, which is the next one of the padded message. -/
theorem Delivers.loadStep (d : Delivers m n s left)
    (busy : s.busy = true) (at' : s.estep = .load) :
    Delivers m (n + 1) (loadStep s) left ∧ n < blockCount m.length ∧ s.buf = padBlock m n := by
  obtain ⟨full, -⟩ := d.inv.at_load at'
  obtain ⟨-, phase⟩ := d.inv.running busy
  have empty : (Machine.loadStep s).holds (padBlock m (n + 1)) := fun _ _ filled => absurd filled (Nat.not_lt_zero _)
  have inv := inv_loadStep d.inv busy
  have buf := d.holds.buf_eq full
  cases d.progress with
  | feeding phase fin le place rest =>
    refine ⟨⟨inv, empty, .feeding phase fin le ?_ rest⟩, ?_, buf⟩
    · rw [loadStep_bufcnt, loadStep_len]; omega
    · unfold blockCount; omega
  | closing _ fin all place rest =>
    refine ⟨⟨inv, empty, .closing busy fin all ?_ rest⟩, by omega, buf⟩
    rw [loadStep_bufcnt, loadStep_fin]; omega
  | delivered done => rw [phase] at done; cases done

/-- ROUND touches nothing of the message. -/
theorem Delivers.roundStep (d : Delivers m n s left)
    (busy : s.busy = true) (at' : s.estep = .round) (lt : s.t < 64) : Delivers m n (roundStep ⟨s.t, lt⟩ s) left := by
  have inv := inv_roundStep d.inv busy at' lt
  cases d.progress with
  | feeding phase fin le place rest => exact ⟨inv, d.holds, .feeding phase fin le place rest⟩
  | closing _ fin all place rest => exact ⟨inv, d.holds, .closing busy fin all place rest⟩
  | delivered done all rest => exact ⟨inv, d.holds, .delivered done all rest⟩

/-- ACCUM goes on with the message, with the length-only block, or ends the message (40_preprocessor.md R87). -/
theorem Delivers.accumStep (d : Delivers m n s left)
    (busy : s.busy = true) (at' : s.estep = .accum) : Delivers m n (accumStep s) left := by
  obtain ⟨empty, -⟩ := d.inv.at_accum at'
  obtain ⟨-, phase⟩ := d.inv.running busy
  have inv := inv_accumStep d.inv busy at'
  cases d.progress with
  | feeding phase fin le place rest =>
    rw [accumStep_none fin] at inv ⊢
    exact ⟨inv, d.holds, .feeding phase fin le place rest⟩
  | closing _ fin all place rest =>
    cases f : s.fin with
    | none => exact absurd f fin
    | pad2 =>
      have second : 56 ≤ s.len % 64 := d.inv.le_of_pad2 f
      rw [f, empty] at place
      simp only [blocksToBuild] at place
      have only : lengthOnlyBuf s.len = padBlock m n := by
        rw [all] at second ⊢
        exact lengthOnlyBuf_eq_padBlock (by omega) (by unfold blockCount at place; omega)
      rw [accumStep_pad2 f] at inv ⊢
      refine ⟨inv, fun j hj _ => by simp only [only], .closing busy (by simp) all ?_ rest⟩
      simp only [blocksToBuild]; omega
    | last =>
      rw [f, empty] at place
      simp only [blocksToBuild] at place
      rw [accumStep_last f] at inv ⊢
      exact ⟨inv, d.holds, .delivered rfl (by omega) rest⟩
  | delivered done => rw [phase] at done; cases done

/-- An ENGINE step reads the next block of the padded message, if it is a LOAD, and else none. -/
theorem Delivers.engineStep (d : Delivers m n s left) :
    ∃ n', Delivers m n' (engineStep s) left
      ∧ blockRead s (Machine.engineStep s) ++ (padBlocks m).drop n' = (padBlocks m).drop n := by
  have c := engineCase s
  generalize Machine.engineStep s = t at c ⊢
  cases c with
  | none => exact ⟨n, d, by rw [blockRead_of_estep_eq rfl, List.nil_append]⟩
  | load busy at' =>
    obtain ⟨d', lt, buf⟩ := d.loadStep busy at'
    refine ⟨n + 1, d', ?_⟩
    rw [blockRead, if_pos ⟨at', rfl⟩, buf, padBlocks_drop lt, List.singleton_append]
  | round busy at' lt =>
    exact ⟨n, d.roundStep busy at' lt, by rw [blockRead_of_ne_load _ (by simp [at']), List.nil_append]⟩
  | accum busy at' =>
    exact ⟨n, d.accumStep busy at', by rw [blockRead_of_ne_load _ (by simp [at']), List.nil_append]⟩

end Delivers

/-- The HOST is presenting the rest of the message `m`, of which `n` blocks are read, with legal quiet commands in any
places and no RESET to come (40_preprocessor.md R88). -/
def Presents (m : List Byte) (n : Nat) (s : State) : Prop :=
  noReset s.sched ∧ ∃ cs : List Instr, s.cmds = cs.map encode ∧ cs.all Instr.wf = true
    ∧ Delivers m n s (cs.filter fun i => !i.quiet)

theorem Presents.start {m : List Byte} {s : State} (h : presentsMessage m s) : Presents m 0 s := by
  obtain ⟨-, nr, k, start, cs, cmds, wf, rest⟩ := h
  refine ⟨nr, cs, cmds, wf, ?_⟩
  have d : Delivers m 0 s.block (messageCommands m) := by
    rw [start]
    exact (delivers_startMessage k).withWorld [] [] [] 0
  rw [rest]
  exact d.withWorld s.cmds s.rsps s.sched s.tick

theorem Presents.inv {m : List Byte} {n : Nat} {s : State} (h : Presents m n s) : s.Inv := by
  obtain ⟨-, cs, -, -, d⟩ := h
  exact d.inv

/-- Whoever moves, a step reads the next block of the padded message or none. -/
theorem Presents.step {m : List Byte} {n : Nat} {s t : State} (p : Presents m n s) (bound : m.length ≤ Config.maxLen)
    (h : step s = .next t) :
    ∃ n', Presents m n' t ∧ blockRead s t ++ (padBlocks m).drop n' = (padBlocks m).drop n := by
  obtain ⟨nr, cs, cmds, wf, d⟩ := p
  obtain ⟨tick, rfl⟩ | ⟨w, ws, tick, presented, may, rfl⟩ := step_agents h nr
  · obtain ⟨n', d', read⟩ := d.engineStep
    exact ⟨n', ⟨noReset_tail nr, cs, cmds, wf, d'.withWorld ..⟩, read⟩
  · obtain ⟨c, cs, rfl, rfl, rfl⟩ := List.map_eq_cons_iff.mp (cmds.symm.trans presented)
    rw [List.all_cons, Bool.and_eq_true] at wf
    obtain ⟨d', noRead⟩ := d.performed bound wf.1 may
    refine ⟨n, ⟨noReset_tail nr, cs, rfl, wf.2, d'.withWorld ..⟩, ?_⟩
    rw [blockRead_withWorld, noRead, List.nil_append]

/-- Along a run, the blocks read and those still to be read are the blocks of the padded message. -/
theorem Presents.run {m : List Byte} {n k : Nat} {s t : State} (p : Presents m n s) (bound : m.length ≤ Config.maxLen)
    (h : Sys2Proof.core.run k s = .next t) :
    ∃ n', Presents m n' t ∧ loadedBlocks k s ++ (padBlocks m).drop n' = (padBlocks m).drop n := by
  induction k generalizing n s with
  | zero => cases h; exact ⟨n, p, rfl⟩
  | succ k ih =>
    obtain ⟨u, e⟩ := step_next s
    rw [run_succ k e] at h
    obtain ⟨n₁, p₁, read⟩ := p.step bound e
    obtain ⟨n₂, p₂, reads⟩ := ih p₁ h
    exact ⟨n₂, p₂, by rw [loadedBlocks_succ k e, List.append_assoc, reads, read]⟩

/-- Where the run has ended, the message is delivered. -/
theorem Presents.delivered_of_ended {m : List Byte} {n : Nat} {s : State} (p : Presents m n s)
    (ended : s.runEnded = true) : s.phase = .done ∧ n = blockCount m.length := by
  obtain ⟨-, cs, cmds, -, d⟩ := p
  simp only [State.runEnded, Bool.and_eq_true, List.isEmpty_iff, Bool.not_eq_true'] at ended
  obtain ⟨noWord, idle⟩ := ended
  obtain rfl : cs = [] := List.map_eq_nil_iff.mp (cmds.symm.trans noWord)
  cases d.progress with
  | feeding _ _ _ _ rest => simp [messageCommands] at rest
  | closing busy => rw [idle] at busy; cases busy
  | delivered done all => exact ⟨done, all⟩

/-- Settles O53: the run ends, and at its end no block of the padded message is left to be read. -/
theorem loadsReadThePaddedMessage : Obligations.LoadsReadThePaddedMessage := by
  intro m s h
  have start := Presents.start h
  obtain ⟨bound, nr, -⟩ := h
  obtain ⟨k, t, run, ended⟩ := exists_run_ended start.inv nr
  obtain ⟨n, last, reads⟩ := start.run bound run
  obtain ⟨done, all⟩ := last.delivered_of_ended ended
  refine ⟨k, t, run, ended, done, ?_⟩
  have none : (padBlocks m).drop n = [] := List.drop_eq_nil_of_le (by simp [padBlocks, all])
  simpa [none] using reads

end Sys2Proof.Machine

/-! PROOFS of the statements of 41_compression.md: the word functions, the schedule, the micro-steps of a block, and the
hash of a message, whatever the interleaving. -/

namespace Sys2Proof.Machine

/-! ## The logical functions -/

/-- Settles O44: bit by bit, by the truth tables of the two functions. -/
theorem chChoosesAndMajTakesTheMajority : Obligations.ChChoosesAndMajTakesTheMajority := by
  have choice : ∀ e f g : Bool, ((e && f) ^^ (!e && g)) = if e then f else g := by decide
  have majority : ∀ x y z : Bool,
      ((x && y) ^^ (x && z) ^^ (y && z)) = decide (2 ≤ x.toNat + y.toNat + z.toNat) := by decide
  refine ⟨fun e f g i => ?_, fun x y z i => ?_⟩
  · simp only [ch, Fin.getElem_fin, BitVec.getElem_xor, BitVec.getElem_and, BitVec.getElem_not, choice]
  · simp only [maj, Fin.getElem_fin, BitVec.getElem_xor, BitVec.getElem_and, majority]

theorem shr_bit (x : Word) (n i : Nat) : (shr x n).getLsbD i = x.getLsbD (i + n) := by
  rw [shr, BitVec.getLsbD_ushiftRight, Nat.add_comm]

/-- Settles O45: bit by bit with `rotr_bit` and `shr_bit`. -/
theorem sigmaFunctionsMixTheStatedBits : Obligations.SigmaFunctionsMixTheStatedBits := by
  intro x i hi
  have rot (n : Nat) (pos : 0 < n) (lt : n < 32) : (rotr x n).getLsbD i = x.getLsbD ((i + n) % 32) :=
    rotr_bit x n i pos lt hi
  refine ⟨?_, ?_, ?_, ?_⟩
  · simp (disch := decide) only [sigma0, BitVec.getLsbD_xor, rot, shr_bit]
  · simp (disch := decide) only [sigma1, BitVec.getLsbD_xor, rot, shr_bit]
  · simp (disch := decide) only [bigSigma0, BitVec.getLsbD_xor, rot]
  · simp (disch := decide) only [bigSigma1, BitVec.getLsbD_xor, rot]

/-! ## The schedule -/

/-- A later entry of the schedule leaves the earlier ones. -/
theorem scheduleTo_succ_getElem (b : Vector Word 16) {n j : Nat} (lt : j < n) (hj : j < 64) :
    (scheduleTo b (n + 1))[j] = (scheduleTo b n)[j] := by
  simp only [scheduleTo]
  split
  · exact Vector.getElem_set_ne _ hj (by omega)
  · split
    · exact Vector.getElem_set_ne _ hj (by omega)
    · rfl

/-- An entry of the schedule is final once it is computed. -/
theorem scheduleTo_getElem (b : Vector Word 16) {n j : Nat} (lt : j < n) (le : n ≤ 64) :
    (scheduleTo b n)[j] = (schedule b)[j] := by
  induction le using Nat.decreasingInduction with
  | self => rfl
  | of_succ k hk ih => rw [← scheduleTo_succ_getElem b lt (by omega)]; exact ih (by omega)

theorem schedule_block (b : Vector Word 16) {t : Nat} (lt : t < 16) : (schedule b)[t] = b[t] := by
  rw [← scheduleTo_getElem b (Nat.lt_succ_self t) (by omega)]
  simp [scheduleTo, lt]

/-- The recurrence of 41_compression.md R107 reads only the 16 entries before `t`. -/
theorem scheduleWord_congr {w w' : Vector Word 64} {t : Nat} (lo : 16 ≤ t) (hi : t < 64)
    (same : ∀ j (hj : j < 64), j < t → w[j] = w'[j]) : scheduleWord w t lo hi = scheduleWord w' t lo hi := by
  simp only [scheduleWord, same (t - 16) (by omega) (by omega), same (t - 15) (by omega) (by omega),
    same (t - 7) (by omega) (by omega), same (t - 2) (by omega) (by omega)]

theorem schedule_recurrence (b : Vector Word 16) {t : Nat} (lo : 16 ≤ t) (hi : t < 64) :
    (schedule b)[t] = scheduleWord (schedule b) t lo hi := by
  rw [← scheduleTo_getElem b (Nat.lt_succ_self t) hi,
    scheduleWord_congr lo hi fun j _ lt => (scheduleTo_getElem b lt hi.le).symm]
  simp [scheduleTo, Nat.not_lt.mpr lo, hi]

/-- Settles O42: by the value each entry gets when it is computed. -/
theorem scheduleMeetsItsRecurrence : Obligations.ScheduleMeetsItsRecurrence :=
  fun b => ⟨fun t => schedule_block b t.isLt, fun t lo => schedule_recurrence b lo t.isLt⟩

/-! ## The micro-steps -/

theorem loadedSchedule_block (buf : Vector Byte 64) (w : Vector Word 64) {j : Nat} (lt : j < 16) :
    (loadedSchedule buf w)[j] = (blockWords buf)[j] := by
  simp [loadedSchedule, blockWords, lt]

theorem loadedSchedule_rest (buf : Vector Byte 64) (w : Vector Word 64) {j : Nat} (hj : j < 64) (ge : 16 ≤ j) :
    (loadedSchedule buf w)[j] = w[j] := by
  simp [loadedSchedule, Nat.not_lt.mpr ge]

/-- Settles O37: LOAD writes `loadedSchedule`, whose first entries are the block's words. -/
theorem loadCopiesBlockAndHash : Obligations.LoadCopiesBlockAndHash := by
  intro s busy at'
  refine ⟨loadedSchedule s.buf s.w, engineStep_load busy at', fun j => ?_, fun j => loadedSchedule_rest _ _ j.isLt⟩
  rw [loadedSchedule_block _ _ j.isLt]
  simp [blockWords, blockWord, be32]

/-- A round below 16 uses the copied word (41_compression.md R111). -/
theorem scheduleFor_copied (w : Vector Word 64) {t : Nat} (lt : t < 16) : scheduleFor w ⟨t, by omega⟩ = w := by
  simp [scheduleFor, Nat.not_le.mpr lt]

/-- From round 16 on the word is computed just before (41_compression.md R111). -/
theorem scheduleFor_computed (w : Vector Word 64) {t : Nat} (lo : 16 ≤ t) (hi : t < 64) :
    scheduleFor w ⟨t, hi⟩ = w.set t (scheduleWord w t lo hi) := by
  simp [scheduleFor, lo]

/-- A round writes no entry of the schedule but its own. -/
theorem scheduleFor_eq_set (w : Vector Word 64) {t : Nat} (lt : t < 64) :
    scheduleFor w ⟨t, lt⟩ = w.set t (scheduleFor w ⟨t, lt⟩)[t] := by
  by_cases lo : 16 ≤ t
  · simp [scheduleFor_computed w lo lt]
  · simp [scheduleFor_copied w (Nat.not_le.mp lo)]

/-- Settles O38: ROUND writes `scheduleFor` and `roundFn`. -/
theorem roundComputesScheduleWordAndRegisters : Obligations.RoundComputesScheduleWordAndRegisters := by
  intro s busy at' lt
  refine ⟨scheduleFor s.w ⟨s.t, lt⟩, (scheduleFor s.w ⟨s.t, lt⟩)[s.t], _, _, fun copied => ?_, fun computed => ?_,
    scheduleFor_eq_set s.w lt, rfl, rfl, ?_⟩
  · rw [scheduleFor_copied s.w copied]
  · rw [scheduleFor_computed s.w computed lt, Vector.getElem_set_self, scheduleWord]
  · have last : s.t + 1 = 64 ↔ s.t = 63 := by omega
    rw [engineStep_round busy at' lt]
    simp [roundStep, roundFn, last]

/-- The eight words of `H` and `V` are added one by one (41_compression.md R112). -/
theorem accumulate_getElem (h v : Vector Word 8) {i : Nat} (hi : i < 8) : (accumulate h v)[i] = h[i] + v[i] := by
  simp [accumulate]

theorem lengthOnlyBuf_zero (len : Nat) {j : Nat} (hj : j < 64) (lt : j < 56) : (lengthOnlyBuf len)[j] = 0x00 := by
  simp [lengthOnlyBuf, Nat.not_le.mpr lt]

theorem lengthOnlyBuf_length (len : Nat) {j : Nat} (hj : j < 64) (ge : 56 ≤ j) :
    (lengthOnlyBuf len)[j] = BitVec.ofNat 8 (8 * len / 256 ^ (63 - j)) := by
  obtain ⟨d, rfl⟩ : ∃ d, j = 56 + d := ⟨j - 56, by omega⟩
  have power : 63 - (56 + d) = 7 - d := by omega
  rw [power, ← lengthByte_eq len ⟨d, by omega⟩]
  exact carriesLength_lengthOnlyBuf len ⟨d, by omega⟩

/-- Settles O39: the three cases of `accumStep`. -/
theorem accumAddsAndGoesOn : Obligations.AccumAddsAndGoesOn := by
  intro s busy at'
  rw [engineStep_accum busy at']
  exact ⟨accumulate s.h s.v, fun i => accumulate_getElem _ _ i.isLt, accumStep_none,
    fun fin => ⟨lengthOnlyBuf s.len, accumStep_pad2 fin, fun j => lengthOnlyBuf_zero _ j.isLt,
      fun _ j => lengthOnlyBuf_length _ j.isLt⟩,
    accumStep_last⟩

/-! ## The rounds of a block -/

/-- The block `b` is being compressed onto `h`: `t` rounds are done, and the schedule is there as far as they use it
(41_compression.md R114). -/
structure Compressing (k : Vector Word 64) (h : Vector Word 8) (b : Vector Word 16) (s : State) : Prop where
  constants : s.k = k
  hash : s.h = h
  registers : s.v = roundsFrom k (schedule b) h s.t
  words : ∀ j (hj : j < 64), j < max 16 s.t → s.w[j] = (schedule b)[j]

theorem compressing_loadStep (s : State) : Compressing s.k s.h (blockWords s.buf) (loadStep s) := by
  refine ⟨rfl, rfl, rfl, fun j hj known => ?_⟩
  have lt : j < 16 := by simpa using known
  rw [schedule_block _ lt]
  exact loadedSchedule_block s.buf s.w lt

section Compressing

variable {k : Vector Word 64} {h : Vector Word 8} {b : Vector Word 16} {s : State}

/-- The schedule that round `t` uses is right up to entry `t`. -/
theorem Compressing.scheduleFor_getElem (c : Compressing k h b s) (lt : s.t < 64) {j : Nat} (hj : j < 64)
    (known : j < max 16 (s.t + 1)) : (scheduleFor s.w ⟨s.t, lt⟩)[j] = (schedule b)[j] := by
  by_cases lo : 16 ≤ s.t
  · rw [scheduleFor_computed s.w lo lt]
    by_cases new : j = s.t
    · subst new
      rw [Vector.getElem_set_self, schedule_recurrence b lo lt]
      exact scheduleWord_congr lo lt fun i hi before => c.words i hi (by omega)
    · rw [Vector.getElem_set_ne _ hj (Ne.symm new)]
      exact c.words j hj (by omega)
  · rw [scheduleFor_copied s.w (Nat.not_le.mp lo)]
    exact c.words j hj (by omega)

theorem Compressing.roundStep (c : Compressing k h b s) (lt : s.t < 64) :
    Compressing k h b (roundStep ⟨s.t, lt⟩ s) := by
  refine ⟨c.constants, c.hash, ?_, fun j hj known => c.scheduleFor_getElem lt hj known⟩
  have word := c.scheduleFor_getElem lt lt (by omega)
  simp [roundsFrom, lt, c.constants, c.registers, word]

theorem Compressing.accumulate_eq (c : Compressing k h b s) (all : s.t = 64) :
    accumulate s.h s.v = compress k h b := by
  rw [c.registers, c.hash, all]
  rfl

theorem Compressing.schedule_eq (c : Compressing k h b s) (all : s.t = 64) : s.w = schedule b :=
  Vector.ext fun j hj => c.words j hj (by omega)

end Compressing

/-- `u` is `n` rounds after the LOAD of `s`. -/
structure AfterRounds (s : State) (n : Nat) (u : State) : Prop where
  busy : u.busy = true
  estep : u.estep = if n = 64 then .accum else .round
  count : u.t = n
  fin : u.fin = s.fin
  compressing : Compressing s.k s.h (blockWords s.buf) u

section AfterRounds

variable {s : State}

/-- One LOAD and `n` ROUNDs (41_compression.md R119). -/
theorem afterRounds_engineRun (busy : s.busy = true) (load : s.estep = .load) {n : Nat} (le : n ≤ 64) :
    AfterRounds s n (engineRun (n + 1) s) := by
  induction n with
  | zero =>
    have first : engineRun 1 s = loadStep s := engineStep_load busy load
    rw [first]
    exact ⟨busy, rfl, rfl, rfl, compressing_loadStep s⟩
  | succ n ih =>
    have u := ih (by omega)
    rw [engineRun_succ]
    generalize engineRun (n + 1) s = v at u ⊢
    have at' : v.estep = .round := by rw [u.estep, if_neg (by omega)]
    have lt : v.t < 64 := by rw [u.count]; omega
    rw [engineStep_round u.busy at' lt]
    exact ⟨u.busy, by simp [u.count], by simp [u.count], u.fin, u.compressing.roundStep lt⟩

theorem afterRounds_engineRun_65 (busy : s.busy = true) (load : s.estep = .load) :
    AfterRounds s 64 (engineRun 65 s) :=
  afterRounds_engineRun busy load le_rfl

/-- The 66th micro-step is ACCUM (41_compression.md R119). -/
theorem engineRun_66 (busy : s.busy = true) (load : s.estep = .load) :
    engineRun 66 s = accumStep (engineRun 65 s) := by
  have u := afterRounds_engineRun_65 busy load
  exact (engineRun_succ 65 s).trans (engineStep_accum u.busy u.estep)

/-- Settles O43: by the rounds of `afterRounds_engineRun`, and ACCUM. -/
theorem blockMicroStepsCompress : Obligations.BlockMicroStepsCompress := by
  intro s busy load
  obtain ⟨-, -, all, -, c⟩ := afterRounds_engineRun_65 busy load
  exact ⟨c.schedule_eq all, by rw [engineRun_66 busy load, accumStep_h, c.accumulate_eq all]⟩

/-- Settles O41: by the rounds of `afterRounds_engineRun`, and ACCUM. -/
theorem hashStateIsNotWrittenDuringTheRounds : Obligations.HashStateIsNotWrittenDuringTheRounds := by
  intro s busy load
  have kept (n : Nat) (le : n ≤ 64) : (engineRun (n + 1) s).h = s.h :=
    (afterRounds_engineRun busy load le).compressing.hash
  refine ⟨fun n le => ?_, fun i => ?_⟩
  · cases n with
    | zero => rfl
    | succ n => exact kept n (by omega)
  · rw [engineRun_66 busy load, accumStep_h, ← kept 64 le_rfl]
    exact accumulate_getElem _ _ i.isLt

/-- The ENGINE is busy until ACCUM. -/
theorem busy_engineRun (busy : s.busy = true) (load : s.estep = .load) {n : Nat} (le : n ≤ 65) :
    (engineRun n s).busy = true := by
  cases n with
  | zero => exact busy
  | succ n => exact (afterRounds_engineRun busy load (by omega)).busy

/-- A block that no length-only block follows ends the ENGINE's work (41_compression.md R113). -/
theorem idle_engineRun_66 (busy : s.busy = true) (load : s.estep = .load) (fin : s.fin ≠ .pad2) :
    (engineRun 66 s).busy = false ∧ (engineRun 66 s).estep = .idle := by
  have u := afterRounds_engineRun_65 busy load
  rw [engineRun_66 busy load]
  cases f : (engineRun 65 s).fin with
  | none => rw [accumStep_none f]; exact ⟨rfl, rfl⟩
  | pad2 => exact absurd (u.fin.symm.trans f) fin
  | last => rw [accumStep_last f]; exact ⟨rfl, rfl⟩

/-- After the first of two padding blocks the ENGINE loads the last one (41_compression.md R113). -/
theorem load_engineRun_66 (busy : s.busy = true) (load : s.estep = .load) (fin : s.fin = .pad2) :
    (engineRun 66 s).busy = true ∧ (engineRun 66 s).estep = .load ∧ (engineRun 66 s).fin = .last := by
  have u := afterRounds_engineRun_65 busy load
  rw [engineRun_66 busy load]
  generalize engineRun 65 s = v at u ⊢
  rw [accumStep_pad2 (u.fin.trans fin)]
  exact ⟨u.busy, rfl, rfl⟩

/-- Settles O40: once through a block, and once more after `pad2`. -/
theorem blockTakesSixtySixMicroSteps : Obligations.BlockTakesSixtySixMicroSteps := by
  intro s busy load
  have last := afterRounds_engineRun_65 busy load
  refine ⟨fun n pos le => ?_, last.busy, last.estep, last.count, idle_engineRun_66 busy load, fun fin => ?_⟩
  · obtain ⟨n, rfl⟩ : ∃ k, n = k + 1 := ⟨n - 1, by omega⟩
    have u := afterRounds_engineRun busy load (n := n) (by omega)
    exact ⟨u.busy, by rw [u.estep, if_neg (by omega)], u.count⟩
  · obtain ⟨busy', load', fin'⟩ := load_engineRun_66 busy load fin
    obtain ⟨idle, at'⟩ := idle_engineRun_66 busy' load' (by simp [fin'])
    rw [← engineRun_add 66 66] at idle at'
    refine ⟨fun n le => ?_, load', idle, at'⟩
    by_cases first : n ≤ 65
    · exact busy_engineRun busy load first
    · obtain ⟨d, rfl⟩ : ∃ d, n = 66 + d := Nat.exists_eq_add_of_le (Nat.not_le.mp first)
      rw [engineRun_add]
      exact busy_engineRun busy' load' (by omega)

end AfterRounds

/-! ## A held word -/

/-- The ENGINE by itself writes nothing of the world. -/
theorem engineRun_world (n : Nat) (s : State) :
    (engineRun n s).cmds = s.cmds ∧ (engineRun n s).rsps = s.rsps ∧ (engineRun n s).tick = s.tick := by
  induction n with
  | zero => exact ⟨rfl, rfl, rfl⟩
  | succ n ih =>
    obtain ⟨cmds, rsps, -, tick, -⟩ := engineStep_keeps (engineRun n s)
    rw [engineRun_succ, cmds, rsps, tick]
    exact ih

/-- A word that waits for an idle ENGINE waits `engineLeft` steps at most, all of them the ENGINE's
(70_reset_and_hazards.md R166). -/
theorem exists_run_to_idle {s : State} {w : Word} {ws : List Word} (inv : s.Inv) (c : s.cmds = w :: ws)
    (waits : ¬(w = 0x00000000 ∨ w = 0x40000000)) (nr : noReset s.sched) :
    ∃ n, n ≤ engineLeft s ∧ (engineRun n s).busy = false
      ∧ Sys2Proof.core.run n s = .next ((engineRun n s).withWorld s.cmds s.rsps (s.sched.drop n) s.tick) := by
  cases busy : s.busy with
  | false => exact ⟨0, Nat.zero_le _, busy, rfl⟩
  | true =>
    have held : hostEnabled s = false := by
      rw [hostEnabled_cons c, Bool.eq_false_iff, ne_eq, accepted_iff, busy]
      simpa using waits
    have nearer := engineLeft_engineStep_lt inv busy
    have next : step s = .next ((engineStep s).withWorld s.cmds s.rsps s.sched.tail s.tick) :=
      (step_held held nr).trans (congrArg _ (engineStep_withWorld s s.cmds s.rsps s.sched.tail s.tick))
    obtain ⟨n, le, idle, run⟩ := exists_run_to_idle
      (s := (engineStep s).withWorld s.cmds s.rsps s.sched.tail s.tick) (inv_engineStep inv) c waits (noReset_tail nr)
    rw [engineRun_withWorld] at idle run
    refine ⟨n + 1, Nat.lt_of_le_of_lt le nearer, idle, ?_⟩
    rw [run_succ n next, run, ← List.drop_tail]
    rfl
termination_by engineLeft s

/-- Settles O49: the ENGINE reaches idle within `engineLeft` steps, which are at most 132. -/
theorem heldWordIsAcceptedWithin132Steps : Obligations.HeldWordIsAcceptedWithin132Steps := by
  intro s w ws inv c held nr
  have waits : ¬(w = 0x00000000 ∨ w = 0x40000000) := fun may => by
    rw [(accepted_iff s w).mpr (.inr may)] at held
    cases held
  obtain ⟨n, le, idle, run⟩ := exists_run_to_idle inv c waits nr
  obtain ⟨cmds, rsps, tick⟩ := engineRun_world n s
  refine ⟨n, _, le.trans (engineLeft_le s), run, (accepted_iff _ w).mpr (.inl idle), c, rfl, ?_⟩
  rw [State.withWorld, ← cmds, ← rsps, ← tick]

/-! ## The hash of the message -/

theorem State.Inv.error_iff {s : State} (inv : s.Inv) : s.phase = .error ↔ s.eOvf = true := by
  obtain ⟨-, -, -, -, -, -, h, -⟩ := inv
  exact h

/-- What the hash state is where `n` blocks of the padded message are read (41_compression.md R115). -/
inductive HashProgress (m : List Byte) (n : Nat) (s : State) : Prop
  /-- every block read is compressed -/
  | between (at' : s.estep = .idle ∨ s.estep = .load) (hash : s.h = hashAfter m n)
  /-- the block read last is being compressed -/
  | within (i : Nat) (read : n = i + 1) (at' : s.estep = .round ∨ s.estep = .accum)
      (c : Compressing roundConstants (hashAfter m i) (blockWords (padBlock m i)) s)

/-- The block takes in the message `m` and hashes it, without an error. -/
structure Hashes (m : List Byte) (n : Nat) (s : State) (left : List Instr) : Prop where
  delivers : Delivers m n s left
  digest : HashProgress m n s
  /-- in phase DONE the whole message is counted -/
  whole : s.phase = .done → s.len = m.length
  noIll : s.eIll = false
  noSeq : s.eSeq = false

/-- All that performing a command of a presented message does: it answers a quiet command, takes in the next byte, or
closes the message. -/
inductive MessageCase (m : List Byte) (c : Instr) (s : State) : State → Prop
  | answered (quiet : c.quiet = true) (r : Word) : MessageCase m c s (respond r s)
  | absorbed (idle : s.busy = false) (phase : s.phase = .absorb) (lt : s.len < m.length) :
      MessageCase m c s (absorbByte m[s.len] s)
  | closed (idle : s.busy = false) (phase : s.phase = .absorb) : MessageCase m c s (padAndStart s)

section Hashes

variable {m : List Byte} {n : Nat} {s : State} {left : List Instr}

theorem HashProgress.withWorld (p : HashProgress m n s) (cmds rsps : List Word) (sched : List Move) (tick : Nat) :
    HashProgress m n (s.withWorld cmds rsps sched tick) := by
  obtain ⟨at', hash⟩ | ⟨i, read, at', constants, hash, registers, words⟩ := p
  · exact .between at' hash
  · exact .within i read at' ⟨constants, hash, registers, words⟩

theorem Hashes.withWorld (d : Hashes m n s left) (cmds rsps : List Word) (sched : List Move) (tick : Nat) :
    Hashes m n (s.withWorld cmds rsps sched tick) left :=
  ⟨d.delivers.withWorld cmds rsps sched tick, d.digest.withWorld cmds rsps sched tick, d.whole, d.noIll, d.noSeq⟩

theorem hashes_startMessage (k : s.k = roundConstants) : Hashes m 0 (startMessage s) (messageCommands m) :=
  ⟨delivers_startMessage k, .between (.inl rfl) rfl, (by simp), rfl, rfl⟩

/-- With the ENGINE idle, the blocks read are compressed. -/
theorem HashProgress.hash_idle (p : HashProgress m n s) (idle : s.estep = .idle) : s.h = hashAfter m n := by
  cases p with
  | between _ hash => exact hash
  | within _ _ at' => simp [idle] at at'

theorem Hashes.hash_idle (d : Hashes m n s left) (idle : s.busy = false) : s.h = hashAfter m n :=
  d.digest.hash_idle (d.delivers.inv.idle idle).1

/-- Nothing to come and the ENGINE idle: the message is hashed. -/
theorem Hashes.hashed (d : Hashes m n s []) (idle : s.busy = false) : s.phase = .done ∧ s.h = hashOf m := by
  cases d.delivers.progress with
  | feeding _ _ _ _ rest => simp [messageCommands] at rest
  | closing busy => rw [idle] at busy; cases busy
  | delivered done all => exact ⟨done, by rw [d.hash_idle idle, all, hashOf]⟩

/-- Performing an accepted command of the presented list does one of the three things. -/
theorem Delivers.messageCase {c : Instr} {cs : List Instr} (d : Delivers m n s ((c :: cs).filter fun i => !i.quiet))
    (bound : m.length ≤ Config.maxLen) (wf : c.wf = true) (may : accepted s (encode c) = true) :
    MessageCase m c s (Machine.performed (encode c) s) := by
  have isCommand := decode_encode_of_wf wf
  by_cases quiet : c.quiet = true
  · obtain ⟨r, e⟩ := exec_quiet quiet wf may
    exact performed_ok isCommand e ▸ .answered quiet r
  · have idle : s.busy = false := by
      rw [accepted_encode_of_ne s (by rintro rfl; exact quiet rfl) (by rintro rfl; exact quiet rfl)] at may
      simpa using may
    rw [List.filter_cons_of_pos (by simp [quiet])] at d
    obtain ⟨phase, -, le, -, rest⟩ := d.progress.feeding_of_cons
    obtain ⟨lt, rfl, -⟩ | ⟨-, rfl, -⟩ := messageCommands_drop_eq_cons le rest
    · have e := exec_absorb_idle m[s.len] idle
      rw [if_neg (not_not_intro phase), if_neg (by omega)] at e
      exact performed_ok isCommand e ▸ .absorbed idle phase lt
    · exact performed_ok isCommand (exec_final_absorb idle phase) ▸ .closed idle phase

theorem Hashes.performed {c : Instr} {cs : List Instr} (d : Hashes m n s ((c :: cs).filter fun i => !i.quiet))
    (bound : m.length ≤ Config.maxLen) (wf : c.wf = true) (may : accepted s (encode c) = true) :
    Hashes m n (performed (encode c) s) (cs.filter fun i => !i.quiet) := by
  obtain ⟨delivers, -⟩ := d.delivers.performed bound wf may
  have does := d.delivers.messageCase bound wf may
  generalize Machine.performed (encode c) s = t at delivers does ⊢
  cases does with
  | answered quiet r =>
    have digest := d.digest.withWorld s.cmds (s.rsps ++ [r]) s.sched s.tick
    exact ⟨delivers, digest, d.whole, d.noIll, d.noSeq⟩
  | absorbed idle phase =>
    obtain ⟨estep, -⟩ := d.delivers.inv.idle idle
    refine ⟨delivers, .between ?_ ?_, fun done => ?_, ?_, ?_⟩
    · rw [absorbByte_estep, estep]; split <;> simp
    · rw [absorbByte_h, d.hash_idle idle]
    · rw [absorbByte_phase, phase] at done; cases done
    · rw [absorbByte_eIll, d.noIll]
    · rw [absorbByte_eSeq, d.noSeq]
  | closed idle phase =>
    refine ⟨delivers, .between (.inr rfl) (d.hash_idle idle), fun done => ?_, d.noIll, d.noSeq⟩
    rw [padAndStart_phase, phase] at done; cases done

theorem Hashes.loadStep (d : Hashes m n s left) (busy : s.busy = true) (at' : s.estep = .load) :
    Hashes m (n + 1) (loadStep s) left := by
  obtain ⟨delivers, -, buf⟩ := d.delivers.loadStep busy at'
  refine ⟨delivers, .within n rfl (.inl rfl) ?_, d.whole, d.noIll, d.noSeq⟩
  cases d.digest with
  | between _ hash => rw [← hash, ← buf, ← d.delivers.inv.k_eq]; exact compressing_loadStep s
  | within _ _ at'' => simp [at'] at at''

theorem Hashes.roundStep (d : Hashes m n s left) (busy : s.busy = true) (at' : s.estep = .round) (lt : s.t < 64) :
    Hashes m n (roundStep ⟨s.t, lt⟩ s) left := by
  refine ⟨d.delivers.roundStep busy at' lt, ?_, d.whole, d.noIll, d.noSeq⟩
  cases d.digest with
  | between at'' => simp [at'] at at''
  | within i read _ c =>
    refine .within i read ?_ (c.roundStep lt)
    rw [roundStep_estep]; split <;> simp

/-- ACCUM ends the block read last (41_compression.md R114). -/
theorem HashProgress.accumStep (p : HashProgress m n s) (at' : s.estep = .accum) (all : s.t = 64) :
    HashProgress m n (accumStep s) := by
  cases p with
  | between at'' => simp [at'] at at''
  | within i read _ c =>
    subst read
    refine .between ?_ ?_
    · cases fin : s.fin with
      | none => rw [accumStep_none fin]; exact .inl rfl
      | pad2 => rw [accumStep_pad2 fin]; exact .inr rfl
      | last => rw [accumStep_last fin]; exact .inl rfl
    · rw [accumStep_h, c.accumulate_eq all, hashAfter]

theorem Hashes.accumStep (d : Hashes m n s left) (busy : s.busy = true) (at' : s.estep = .accum) :
    Hashes m n (accumStep s) left := by
  obtain ⟨-, all⟩ := d.delivers.inv.at_accum at'
  refine ⟨d.delivers.accumStep busy at', d.digest.accumStep at' all, fun done => ?_, ?_, ?_⟩
  · rw [accumStep_len]
    cases d.delivers.progress with
    | feeding phase fin => rw [accumStep_none fin] at done; exact d.whole done
    | closing _ _ all => exact all
    | delivered done => exact d.whole done
  · rw [accumStep_eIll, d.noIll]
  · rw [accumStep_eSeq, d.noSeq]

theorem Hashes.engineStep (d : Hashes m n s left) : ∃ n', Hashes m n' (engineStep s) left := by
  have c := engineCase s
  generalize Machine.engineStep s = t at c ⊢
  cases c with
  | none => exact ⟨n, d⟩
  | load busy at' => exact ⟨n + 1, d.loadStep busy at'⟩
  | round busy at' lt => exact ⟨n, d.roundStep busy at' lt⟩
  | accum busy at' => exact ⟨n, d.accumStep busy at'⟩

end Hashes

/-- The HOST has the legal commands `cs` to present, no RESET is to come, and the block hashes the message `m`. -/
structure HashesPresented (m : List Byte) (cs : List Instr) (s : State) : Prop where
  noReset : noReset s.sched
  cmds : s.cmds = cs.map encode
  wf : cs.all Instr.wf = true
  hashes : ∃ n, Hashes m n s (cs.filter fun i => !i.quiet)

section HashesPresented

variable {m : List Byte} {cs : List Instr} {s t : State}

theorem HashesPresented.inv (p : HashesPresented m cs s) : s.Inv := by
  obtain ⟨n, d⟩ := p.hashes
  exact d.delivers.inv

theorem hashesPresented_of_start (nr : noReset s.sched) (cmds : s.cmds = cs.map encode)
    (wf : cs.all Instr.wf = true) (k : s.k = roundConstants) (start : s.block = (startMessage s).block)
    (rest : cs.filter (fun i => !i.quiet) = messageCommands m) : HashesPresented m cs s := by
  refine ⟨nr, cmds, wf, 0, ?_⟩
  have d : Hashes m 0 s.block (messageCommands m) := by
    rw [start]
    exact (hashes_startMessage k).withWorld [] [] [] 0
  rw [rest]
  exact d.withWorld s.cmds s.rsps s.sched s.tick

/-- A step is the ENGINE's, and gives no response, or performs the presented command. -/
theorem HashesPresented.step (p : HashesPresented m cs s) (bound : m.length ≤ Config.maxLen) (h : step s = .next t) :
    (HashesPresented m cs t ∧ t.rsps = s.rsps)
      ∨ ∃ c cs', cs = c :: cs' ∧ accepted s (encode c) = true ∧ HashesPresented m cs' t
          ∧ MessageCase m c s (performed (encode c) s) ∧ t.rsps = (performed (encode c) s).rsps := by
  obtain ⟨nr, cmds, wf, n, d⟩ := p
  obtain ⟨tick, rfl⟩ | ⟨w, ws, tick, presented, may, rfl⟩ := step_agents h nr
  · obtain ⟨n', d'⟩ := d.engineStep
    exact .inl ⟨⟨noReset_tail nr, cmds, wf, n', d'.withWorld ..⟩, rfl⟩
  · obtain ⟨c, cs, rfl, rfl, rfl⟩ := List.map_eq_cons_iff.mp (cmds.symm.trans presented)
    rw [List.all_cons, Bool.and_eq_true] at wf
    obtain ⟨wfHead, wfTail⟩ := wf
    exact .inr ⟨c, cs, rfl, may, ⟨noReset_tail nr, rfl, wfTail, n, (d.performed bound wfHead may).withWorld ..⟩,
      d.delivers.messageCase bound wfHead may, rfl⟩

/-- At the end of a run the message is hashed, with no error flag set. -/
theorem HashesPresented.hashed_of_ended (p : HashesPresented m cs s) (ended : s.runEnded = true) :
    cs = [] ∧ s.phase = .done ∧ s.h = hashOf m ∧ s.len = m.length ∧ s.eOvf = false ∧ s.eIll = false
      ∧ s.eSeq = false := by
  obtain ⟨-, cmds, -, n, d⟩ := p
  simp only [State.runEnded, Bool.and_eq_true, List.isEmpty_iff, Bool.not_eq_true'] at ended
  obtain ⟨noWord, idle⟩ := ended
  obtain rfl : cs = [] := List.map_eq_nil_iff.mp (cmds.symm.trans noWord)
  obtain ⟨done, hash⟩ := d.hashed idle
  refine ⟨rfl, done, hash, d.whole done, ?_, d.noIll, d.noSeq⟩
  rw [Bool.eq_false_iff, ne_eq, ← State.Inv.error_iff d.delivers.inv, done]
  simp

end HashesPresented

/-- Settles O54: the run ends, and every step of it keeps `HashesPresented`. -/
theorem messageIsHashed : Obligations.MessageIsHashed := by
  intro m s ⟨bound, nr, k, start, cs, cmds, wf, rest⟩
  have p := hashesPresented_of_start nr cmds wf k start rest
  obtain ⟨n, t, run, ended⟩ := exists_run_ended p.inv nr
  have keeps (u v : State) (p : ∃ cs, HashesPresented m cs u) (h : step u = .next v) :
      ∃ cs, HashesPresented m cs v := by
    obtain ⟨cs, p⟩ := p
    obtain ⟨p', -⟩ | ⟨-, cs', -, -, p', -⟩ := p.step bound h
    · exact ⟨cs, p'⟩
    · exact ⟨cs', p'⟩
  obtain ⟨cs', last⟩ := run_preserves keeps ⟨cs, p⟩ run
  obtain ⟨-, done, hash, len, ovf, ill, seq⟩ := last.hashed_of_ended ended
  exact ⟨n, t, run, ended, done, hash, len, ovf, ill, seq⟩

/-! ## The digest string -/

/-- The command that reads character `i` of the digest (30_encoding.md R75). -/
def readCharacter (i : Fin 64) : Instr := .rdhex (BitVec.ofNat 8 i.val)

/-- Its answer. -/
def characterWord (h : Vector Word 8) (i : Fin 64) : Word := (digestChar h i).setWidth 32

/-- The HOST has commands of the message to present, then the reads of the characters `is`; with the answers still to
come, 0 for each of the message's and the characters of its hash, the responses are `all`. -/
inductive ReadsDigest (m : List Byte) (all : List Word) (s : State) : Prop
  | intro (feed : List Instr) (is : List (Fin 64)) (loud : ∀ c ∈ feed, c.quiet = false)
      (hashes : HashesPresented m (feed ++ is.map readCharacter) s)
      (answers : s.rsps ++ List.replicate feed.length 0 ++ is.map (characterWord (hashOf m)) = all)

section ReadsDigest

variable {m : List Byte} {all : List Word} {s t : State}

theorem MessageCase.rsps_of_loud {c : Instr} (x : MessageCase m c s t) (loud : c.quiet = false) :
    t.rsps = s.rsps ++ [0] := by
  cases x with
  | answered quiet => rw [loud] at quiet; cases quiet
  | absorbed => exact absorbByte_rsps _ s
  | closed => rfl

theorem filter_map_readCharacter (is : List (Fin 64)) : (is.map readCharacter).filter (fun i => !i.quiet) = [] := by
  induction is with
  | nil => rfl
  | cons i is ih => exact ih

/-- A read that is accepted where the commands of the message are done answers its character of the hash. -/
theorem HashesPresented.performed_readCharacter {i : Fin 64} {is : List (Fin 64)}
    (p : HashesPresented m ((i :: is).map readCharacter) s) (may : accepted s (encode (readCharacter i)) = true) :
    performed (encode (readCharacter i)) s = respond (characterWord (hashOf m) i) s := by
  obtain ⟨-, -, wf, n, d⟩ := p
  rw [filter_map_readCharacter] at d
  have idle : s.busy = false := by
    rw [accepted_encode_of_ne s (by simp [readCharacter]) (by simp [readCharacter])] at may
    simpa using may
  obtain ⟨-, hash⟩ := d.hashed idle
  rw [List.map_cons, List.all_cons, Bool.and_eq_true] at wf
  rw [performed_ok (decode_encode_of_wf wf.1) (exec_rdhex_idle idle (toNat_ofNat_eight (by omega))), hash]
  rfl

theorem ReadsDigest.step (r : ReadsDigest m all s) (bound : m.length ≤ Config.maxLen) (h : step s = .next t) :
    ReadsDigest m all t := by
  obtain ⟨feed, is, loud, p, answers⟩ := r
  obtain ⟨p', same⟩ | ⟨c, cs, split, may, p', does, same⟩ := p.step bound h
  · exact ⟨feed, is, loud, p', by rw [same, answers]⟩
  cases feed with
  | cons c' feed =>
    obtain ⟨rfl, rfl⟩ := List.cons.inj split
    rw [does.rsps_of_loud (loud c' List.mem_cons_self)] at same
    refine ⟨feed, is, fun c mem => loud c (List.mem_cons_of_mem _ mem), p', ?_⟩
    rw [same, ← answers, List.append_assoc s.rsps [0]]
    rfl
  | nil =>
    cases is with
    | nil => cases split
    | cons i is =>
      obtain ⟨rfl, rfl⟩ := List.cons.inj split
      rw [p.performed_readCharacter may, respond_rsps] at same
      refine ⟨[], is, loud, p', ?_⟩
      rw [same, ← answers]
      simp

end ReadsDigest

/-- The words of HASH and RDDIGESTHEX (30_encoding.md R75) are INIT, the message's commands and the 64 reads. -/
theorem hash_then_read_words (m : List Byte) :
    (AsmItem.hash m).words 0 ++ AsmItem.rdDigestHex.words 0
      = encode .init :: (messageCommands m ++ (List.finRange 64).map readCharacter).map encode := by
  have reads : AsmItem.rdDigestHex.words 0 = ((List.finRange 64).map readCharacter).map encode := by
    simp [AsmItem.words, ← List.map_coe_finRange_eq_range, readCharacter, Function.comp_def]
  rw [reads]
  simp [AsmItem.words, absorbAll, messageCommands]

theorem loud_of_mem_messageCommands {m : List Byte} {c : Instr} (mem : c ∈ messageCommands m) : c.quiet = false := by
  simp only [messageCommands, List.mem_append, List.mem_map, List.mem_singleton] at mem
  obtain ⟨b, -, rfl⟩ | rfl := mem <;> rfl

theorem wf_readCharacter (i : Fin 64) : (readCharacter i).wf = true := by
  rw [readCharacter, Instr.wf, toNat_ofNat_eight (by omega)]
  exact decide_eq_true i.isLt

theorem wf_messageCommands (m : List Byte) : (messageCommands m).all Instr.wf = true := by
  simp [messageCommands, Instr.wf]

/-- INIT begins the message, with all its commands and the reads to come. -/
theorem readsDigest_init {m : List Byte} {s : State} (inv : s.Inv) (nr : noReset s.sched)
    (cmds : s.cmds = (messageCommands m ++ (List.finRange 64).map readCharacter).map encode) :
    ReadsDigest m (s.rsps ++ List.replicate (m.length + 2) 0 ++ List.ofFn (characterWord (hashOf m)))
      (respond 0 (startMessage s)) := by
  refine ⟨messageCommands m, List.finRange 64, fun c => loud_of_mem_messageCommands,
    hashesPresented_of_start nr cmds ?_ inv.k_eq rfl ?_, ?_⟩
  · rw [List.all_append, wf_messageCommands, List.all_map]
    exact List.all_eq_true.mpr fun i _ => wf_readCharacter i
  · rw [List.filter_append, filter_map_readCharacter, List.append_nil, List.filter_eq_self]
    exact fun c mem => by rw [loud_of_mem_messageCommands mem]; rfl
  · have length : (messageCommands m).length = m.length + 1 := by simp [messageCommands]
    rw [length, respond_rsps, startMessage_rsps, List.append_assoc s.rsps [0], List.ofFn_eq_map]
    rfl

/-- With the ENGINE idle, a presented INIT is performed whoever moves. -/
theorem step_init {s : State} {ws : List Word} (idle : s.busy = false) (c : s.cmds = encode .init :: ws)
    (nr : noReset s.sched) :
    step s = .next (respond 0 (startMessage (s.withWorld ws s.rsps s.sched.tail s.tick))) :=
  calc step s
    _ = perform (encode .init) (s.withWorld ws s.rsps s.sched.tail s.tick) := step_idle idle c nr
    _ = exec .init (s.withWorld ws s.rsps s.sched.tail s.tick) := perform_ok (decode_encode_of_wf rfl)
    _ = .next (respond 0 (startMessage (s.withWorld ws s.rsps s.sched.tail s.tick))) := exec_init_idle idle

/-- Settles O55: after INIT every step keeps `ReadsDigest`, and at the end no answer is to come. -/
theorem hashThenReadAnswersTheDigestString : Obligations.HashThenReadAnswersTheDigestString := by
  intro m s bound inv idle nr cmds
  rw [hash_then_read_words] at cmds
  have first := step_init idle cmds nr
  have start := readsDigest_init (m := m) ((inv_withWorld s _ s.rsps s.sched.tail s.tick).mpr inv) (noReset_tail nr) rfl
  obtain ⟨n, t, run, ended⟩ := exists_run_ended (inv_step inv first) (noReset_tail nr)
  obtain ⟨feed, is, -, last, answers⟩ := run_preserves (fun _ _ reads => reads.step bound) start run
  obtain ⟨nothing, done, -⟩ := last.hashed_of_ended ended
  obtain ⟨rfl, noRead⟩ := List.append_eq_nil_iff.mp nothing
  obtain rfl : is = [] := List.map_eq_nil_iff.mp noRead
  simp only [List.map_nil, List.length_nil, List.replicate_zero, List.append_nil] at answers
  exact ⟨n + 1, t, (run_succ n first).trans run, ended, done, answers⟩

end Sys2Proof.Machine

/-! PROOFS of the statements of 42_control_readout.md on NOP, INIT and RDSTAT, and on the digest string. -/

namespace Sys2Proof.Machine

/-! ## RDSTAT -/

/-- STATUS.BUSY (10_state.md R33) is `busy`. -/
theorem status_busy (s : State) : (status s).extractLsb' 0 1 = BitVec.ofBool s.busy := by
  rw [extractLsb'_one_eq_ofBool, status_bit s 0 (by decide)]
  simp

/-- PHASE stands just above BUSY in STATUS (10_state.md R33). -/
theorem status_phase_busy (s : State) :
    (status s).extractLsb' 0 3 = phaseCode s.phase ++ BitVec.ofBool s.busy := by
  rw [← status_phase, ← status_busy, eq_comm]
  exact BitVec.extractLsb'_append_extractLsb'_eq_extractLsb' rfl

/-- Settles O19: the ENGINE runs only in phase ABSORB, by the invariant. -/
theorem rdstatAnswersStatus : Obligations.RdstatAnswersStatus := by
  refine ⟨rfl, fun s => ⟨(accepted_iff s _).mpr (.inr (.inr rfl)), rfl⟩, fun s inv busy => ?_⟩
  obtain ⟨-, phase⟩ := inv.running busy
  rw [status_phase_busy, phase, busy]
  rfl

/-! ## The digest string -/

/-- The digits' codes lie below the letters' codes, so a character names its nibble (42_control_readout.md R136). -/
theorem hexchar_injective : Function.Injective hexchar := by
  intro n n' same
  have codes := congrArg BitVec.toNat same
  rw [hexchar_toNat, hexchar_toNat] at codes
  apply BitVec.eq_of_toNat_eq
  split_ifs at codes <;> omega

/-- A digest byte is its two nibbles, the first on top (20_memory.md R49). -/
theorem digestNibble_append_digestNibble (h : Vector Word 8) {m : Nat} (hm : m < 32) :
    digestNibble h ⟨2 * m, by omega⟩ ++ digestNibble h ⟨2 * m + 1, by omega⟩ = digestByte h ⟨m, hm⟩ := by
  rw [← digestByte_high_nibble h hm, ← digestByte_low_nibble h hm]
  exact (BitVec.extractLsb'_append_extractLsb'_eq_extractLsb' rfl).trans BitVec.extractLsb'_eq_self

/-- The nibbles determine the bytes, and the bytes the words, of a digest. -/
theorem hash_eq_of_digestNibble_eq {h h' : Vector Word 8} (same : ∀ i, digestNibble h i = digestNibble h' i) :
    h = h' := by
  have bytes (m : Nat) (hm : m < 32) : digestByte h ⟨m, hm⟩ = digestByte h' ⟨m, hm⟩ := by
    rw [← digestNibble_append_digestNibble h, ← digestNibble_append_digestNibble h', same, same]
  refine Vector.ext fun k hk => ?_
  rw [← be32_digestBytes h hk, ← be32_digestBytes h' hk, bytes, bytes, bytes, bytes]

/-- Settles O25: a character has the code of its nibble's digit, and names the nibble. -/
theorem digestStringIsLowercaseHexAndExact : Obligations.DigestStringIsLowercaseHexAndExact := by
  refine ⟨fun h i => ?_, fun h h' same => hash_eq_of_digestNibble_eq fun i => hexchar_injective (same i)⟩
  rw [digestChar, hexchar_toNat]
  split
  · exact .inl (by omega)
  · exact .inr (by omega)

/-! ## NOP -/

/-- A legal word with opcode 0 is the word of NOP (30_encoding.md R68). -/
theorem eq_zero_of_legal_of_opOf_eq_zero {w : Word} (isLegal : legal w = true) (op : opOf w = 0) : w = 0 := by
  obtain ⟨i, -, rfl⟩ := exists_encode_of_legal isLegal
  rw [encode, opOf_packFields] at op
  have named := commandOf_opcode_operand i
  rw [op] at named
  cases named
  rfl

/-- A response does not touch the ENGINE, nor the ENGINE the responses (42_control_readout.md R130). -/
theorem engineStep_respond (r : Word) (s : State) : engineStep (respond r s) = respond r (engineStep s) := by
  obtain ⟨cmds, rsps, sched, tick, -⟩ := engineStep_keeps s
  calc engineStep (respond r s)
    _ = (engineStep s).withWorld s.cmds (s.rsps ++ [r]) s.sched s.tick := engineStep_withWorld s ..
    _ = respond r (engineStep s) := by rw [← cmds, ← rsps, ← sched, ← tick]; rfl

/-- Settles O14: the effect of NOP is one response 0, which commutes with an ENGINE step. -/
theorem nopAnswersZeroAndChangesNothing : Obligations.NopAnswersZeroAndChangesNothing := by
  refine ⟨rfl, fun s => ⟨(accepted_iff s _).mpr (.inr (.inl rfl)), rfl⟩, fun w op notNop => ?_, fun s t h => ?_⟩
  · by_contra isLegal
    exact notNop (eq_zero_of_legal_of_opOf_eq_zero (by simpa using isLegal) op)
  · obtain rfl : respond 0 s = t := Host.Outcome.next.inj h
    exact congrArg _ (engineStep_respond 0 s).symm

/-! ## INIT -/

theorem status_startMessage (s : State) : status (startMessage s) = 0 :=
  calc status (startMessage s)
    _ = status State.reset := rfl
    _ = 0 := by decide

/-- Settles O15: INIT answers 0 and starts a message. -/
theorem initStartsANewMessage : Obligations.InitStartsANewMessage :=
  ⟨rfl, fun s => accepted_encode_of_ne s (by simp) (by simp),
    fun s idle => ⟨_, exec_init_idle idle, rfl, status_startMessage s⟩⟩

end Sys2Proof.Machine

/-! PROOFS of the statements of 60_exceptions.md: what an illegal word does, and the errors of ABSORB and FINAL. -/

namespace Sys2Proof

/-- The decoder refuses every illegal word (30_encoding.md R70). -/
theorem decode_error_of_illegal {w : Word} (bad : legal w = false) : ∃ r, decode w = .error r := by
  cases d : decode w with
  | error r => exact ⟨r, rfl⟩
  | ok i =>
    rw [legal_iff_decode.mpr ⟨i, d⟩] at bad
    cases bad

/-- Only INIT has the word of INIT (30_encoding.md R68). -/
theorem encode_eq_init_iff {i : Instr} : encode i = 0x10000000 ↔ i = .init :=
  encode_injective.eq_iff (b := .init)

/-- The opcode 2 is that of ABSORB (30_encoding.md R68). -/
theorem opcode_eq_two_iff {i : Instr} : i.opcode = 2 ↔ ∃ b, i = .absorb b := by
  cases i <;> simp [Instr.opcode]

/-- The opcode 3 is that of FINAL (30_encoding.md R68). -/
theorem opcode_eq_three_iff {i : Instr} : i.opcode = 3 ↔ i = .final := by
  cases i <;> simp [Instr.opcode]

/-- The opcode field of a command's word (30_encoding.md R65), as the obligations write it. -/
theorem extractLsb'_encode (i : Instr) : (encode i).extractLsb' 28 4 = i.opcode :=
  opOf_packFields i.opcode 0 i.operand

end Sys2Proof

namespace Sys2Proof.Machine

/-! ## Illegal words -/

/-- Performing an illegal word raises E_ILL and does nothing else (60_exceptions.md R146). -/
theorem perform_illegal {w : Word} (bad : legal w = false) (s : State) : perform w s = .next (raise .ill s) := by
  obtain ⟨r, d⟩ := decode_error_of_illegal bad
  exact perform_error d

/-- An illegal word is held while the ENGINE runs (70_reset_and_hazards.md R166). -/
theorem accepted_illegal_busy {w : Word} {s : State} (bad : legal w = false) (busy : s.busy = true) :
    accepted s w = false := by
  obtain ⟨r, d⟩ := decode_error_of_illegal bad
  by_contra may
  rw [idle_of_accepted_illegal (by simpa using may) d] at busy
  cases busy

/-- Settles O11: with the ENGINE idle the HOST performs the word, else the turn is the ENGINE's. -/
theorem illegalWordSetsOnlyTheIllFlag : Obligations.IllegalWordSetsOnlyTheIllFlag := by
  intro s w ws ms (presented : { s with sched := ms }.cmds = w :: ws) bad chosen
  rw [step_host chosen]
  constructor
  · intro idle
    have host : hostEnabled { s with sched := ms } = true :=
      (hostEnabled_cons presented).trans ((accepted_iff _ w).mpr (.inl idle))
    rw [turn_hostStep host (.inr rfl), hostStep_cons presented, perform_illegal bad]
    rfl
  · intro busy
    have held : hostEnabled { s with sched := ms } = false :=
      (hostEnabled_cons presented).trans (accepted_illegal_busy bad busy)
    obtain ⟨cmds, rsps, -, -, -, -, -, ill, -⟩ := engineStep_keeps { s with sched := ms }
    exact ⟨_, turn_engineStep (.inl held), ill, cmds.trans presented, rsps⟩

/-! ## The errors of a command -/

/-- Settles O31: an illegal word raises E_ILL, and a legal one is a command, of which each case of `ExecCase` raises at
most one error. -/
theorem oneErrorPerCommandInPriorityOrder : Obligations.OneErrorPerCommandInPriorityOrder := by
  intro w s t idle h
  cases isLegal : legal w with
  | false =>
    have notInit : w ≠ 0x10000000 := by
      rintro rfl
      exact absurd isLegal (by decide)
    rw [perform_illegal isLegal] at h
    cases h
    simpa using notInit
  | true =>
    obtain ⟨i, wf, rfl⟩ := exists_encode_of_legal isLegal
    rw [perform_ok (decode_encode_of_wf wf)] at h
    simp only [extractLsb'_encode, ne_eq, encode_eq_init_iff, opcode_eq_two_iff, opcode_eq_three_iff]
    cases execCase_of_next h with
    | held busy => rw [idle] at busy; cases busy
    | raisedIll _ _ illFormed => rw [wf] at illFormed; cases illFormed
    | answered r quiet =>
      have notInit : i ≠ .init := by rintro rfl; cases quiet
      have notFinal : i ≠ .final := by rintro rfl; cases quiet
      have notAbsorb (b : Byte) : i ≠ .absorb b := by rintro rfl; cases quiet
      simp [notInit, notFinal, notAbsorb]
    | raisedSeq _ which phase =>
      obtain rfl | ⟨b, rfl⟩ := which
      · simp [phase]
      · simp [phase]
    | raisedOvf b _ which phase full => subst which; simp [phase, full]
    | initialised _ which => subst which; simp
    | absorbed b _ which phase room => subst which; simp [phase, room]
    | padded _ which phase => subst which; simp [phase]

/-- Settles O36: of the cases of `step_flagCase`, INIT is held while the ENGINE runs, and an error is raised only where
it is idle. -/
theorem noErrorIsRaisedWhileBusy : Obligations.NoErrorIsRaisedWhileBusy := by
  intro s t busy h nr
  obtain same | ⟨w, ⟨-, may⟩, same | ⟨isInit, -⟩ | ⟨e₀, idle, -, -⟩⟩ := step_flagCase h nr
  · exact same
  · exact same
  · rw [isInit, accepted_encode_of_ne s (by decide) (by decide), busy] at may
    cases may
  · rw [busy] at idle
    cases idle

/-- Settles O29: the phase test comes first in both commands. -/
theorem messageCommandOutOfPhaseSetsOnlySeq : Obligations.MessageCommandOutOfPhaseSetsOnlySeq := by
  intro i s which idle phase
  have outOfPhase : s.phase ≠ .absorb := by
    obtain done | error := phase
    · simp [done]
    · simp [error]
  obtain rfl | ⟨b, rfl⟩ := which
  · rw [exec_final_idle idle, if_pos outOfPhase]
    rfl
  · rw [exec_absorb_idle b idle, if_pos outOfPhase]
    rfl

/-- Settles O30: at the limit ABSORB raises E_OVF, and below it `absorbByte` keeps the phase and the flag. -/
theorem absorbAtMaxLenOverflows : Obligations.AbsorbAtMaxLenOverflows := by
  refine fun b s idle phase => ⟨fun (full : s.len = Config.maxLen) => ?_, fun (lt : s.len < Config.maxLen) => ?_⟩
  · rw [exec_absorb_idle b idle, if_neg (not_not_intro phase), if_pos full]
    rfl
  · refine ⟨absorbByte b s, ?_, absorbByte_len b s, (absorbByte_phase b s).trans phase, absorbByte_eOvf b s⟩
    rw [exec_absorb_idle b idle, if_neg (not_not_intro phase), if_neg lt.ne]

end Sys2Proof.Machine

/-! PROOF of the statement of 70_reset_and_hazards.md on the atomic form (R172): every step of a two-agent run keeps
what the atomic form makes of the settled block and of the words still presented. -/

namespace Sys2Proof.Machine

theorem block_withWorld (s : State) (cmds rsps : List Word) (sched : List Move) (tick : Nat) :
    (s.withWorld cmds rsps sched tick).block = s.block := rfl

/-! ## Settling -/

/-- As many micro-steps as `engineLeft` counts bring the ENGINE to idle. -/
theorem idle_engineRun_of_engineLeft_le {n : Nat} {s : State} (inv : s.Inv) (le : engineLeft s ≤ n) :
    (engineRun n s).busy = false := by
  induction n generalizing s with
  | zero =>
    cases busy : s.busy with
    | false => exact busy
    | true => exact absurd (engineLeft_engineStep_lt inv busy) (by omega)
  | succ n ih =>
    cases busy : s.busy with
    | false => rw [engineRun_idle busy, busy]
    | true =>
      have nearer := engineLeft_engineStep_lt inv busy
      exact ih (inv_engineStep inv) (by omega)

theorem busy_settle {s : State} (inv : s.Inv) : (settle s).busy = false :=
  idle_engineRun_of_engineLeft_le inv (engineLeft_le s)

theorem settle_settle {s : State} (inv : s.Inv) : settle (settle s) = settle s := settle_idle (busy_settle inv)

theorem engineRun_engineStep (n : Nat) (s : State) : engineRun n (engineStep s) = engineStep (engineRun n s) :=
  engineRun_succ n s

/-- A micro-step is one of those that settling performs. -/
theorem settle_engineStep {s : State} (inv : s.Inv) : settle (engineStep s) = settle s :=
  (engineRun_engineStep 132 s).trans (engineStep_idle (busy_settle inv))

theorem settle_rsps (s : State) : (settle s).rsps = s.rsps := by
  obtain ⟨-, rsps, -⟩ := engineRun_world 132 s
  exact rsps

/-- What settling does to the block depends on the block alone. -/
theorem settle_congr {s t : State} (same : s.block = t.block) : (settle s).block = (settle t).block := by
  have alone (u : State) : (settle u.block).block = (settle u).block :=
    calc (settle u.block).block
      _ = ((settle u).withWorld [] [] [] 0).block := congrArg State.block (settle_withWorld u [] [] [] 0)
      _ = (settle u).block := block_withWorld ..
  rw [← alone s, same, alone t]

theorem settle_respond (r : Word) (s : State) : (settle (respond r s)).block = (settle s).block := settle_congr rfl

/-! ## A performed word -/

theorem performed_nop (s : State) : performed 0x00000000 s = respond 0 s := rfl

theorem performed_rdstat (s : State) : performed 0x40000000 s = respond (status s) s := rfl

theorem performed_block (w : Word) (s : State) : (performed w s.block).block = (performed w s).block := by
  rw [performed_withWorld w s]
  rfl

theorem performed_rsps (w : Word) (s : State) : (performed w s).rsps = s.rsps ++ (performed w s.block).rsps := by
  rw [performed_withWorld w s]
  rfl

/-- A command that is not held gives one response (30_encoding.md R72). -/
theorem ExecCase.rsps {i : Instr} {s t : State} (c : ExecCase i s t)
    (free : s.busy = false ∨ i = .nop ∨ i = .rdstat) : ∃ r, t.rsps = s.rsps ++ [r] := by
  cases c with
  | held busy notNop notRdstat => simp [busy, notNop, notRdstat] at free
  | answered r => exact ⟨r, rfl⟩
  | raisedIll => exact ⟨0, by simp⟩
  | raisedSeq => exact ⟨0, by simp⟩
  | raisedOvf => exact ⟨0, by simp⟩
  | initialised => exact ⟨0, rfl⟩
  | absorbed b => exact ⟨0, absorbByte_rsps b s⟩
  | padded => exact ⟨0, rfl⟩

/-- With the ENGINE idle every word gives one response (30_encoding.md R72). -/
theorem exists_performed_rsps {s : State} (w : Word) (idle : s.busy = false) :
    ∃ r, (performed w s).rsps = s.rsps ++ [r] := by
  cases d : decode w with
  | error r => exact ⟨0, by rw [performed_error d]; rfl⟩
  | ok i =>
    obtain ⟨t, does, c⟩ := exec_cases i s
    rw [performed_ok d does]
    exact c.rsps (.inl idle)

/-- An accepted word leaves the same block whether the ENGINE's work comes after it or before it
(70_reset_and_hazards.md R165, R166). -/
theorem settle_performed {s : State} {w : Word} (inv : s.Inv) (may : accepted s w = true) :
    (settle (performed w s)).block = (settle (performed w (settle s))).block := by
  have harmless (r r' : Word) : (settle (respond r s)).block = (settle (respond r' (settle s))).block := by
    rw [settle_respond, settle_respond, settle_settle inv]
  obtain idle | rfl | rfl := (accepted_iff s w).mp may
  · rw [settle_idle idle]
  · rw [performed_nop, performed_nop]
    exact harmless 0 0
  · rw [performed_rdstat, performed_rdstat]
    exact harmless (status s) (status (settle s))

/-- Of the accepted words only RDSTAT can tell a running ENGINE from a settled one (70_reset_and_hazards.md R172). -/
theorem exists_answers_settle {s : State} {w : Word} (may : accepted s w = true) :
    ∃ r r', (performed w s).rsps = s.rsps ++ [r] ∧ (performed w (settle s).block).rsps = [r']
      ∧ (w ≠ 0x40000000 → r = r') := by
  obtain idle | rfl | rfl := (accepted_iff s w).mp may
  · obtain ⟨r, answer⟩ := exists_performed_rsps (s := s.block) w idle
    rw [performed_rsps, settle_idle idle, answer]
    exact ⟨r, r, rfl, rfl, fun _ => rfl⟩
  · exact ⟨0, 0, rfl, rfl, fun _ => rfl⟩
  · exact ⟨status s, status (settle s).block, rfl, rfl, fun other => absurd rfl other⟩

/-! ## The atomic form in any world -/

theorem atomicRun_cons (w : Word) (ws : List Word) (s : State) :
    atomicRun (w :: ws) s = atomicRun ws (settle (performed w s)) := rfl

/-- The responses that the atomic form gives to the words `ws`. -/
def atomicAnswers (ws : List Word) (s : State) : List Word := (atomicRun ws s.block).rsps

/-- The atomic form does to the block what it does to the block alone, and appends the same responses in any world. -/
theorem atomicRun_withWorld (ws : List Word) (s : State) :
    atomicRun ws s = (atomicRun ws s.block).withWorld s.cmds (s.rsps ++ atomicAnswers ws s) s.sched s.tick := by
  induction ws generalizing s with
  | nil => simp [atomicRun, atomicAnswers, State.withWorld, State.block]
  | cons w ws ih =>
    have first : settle (performed w s)
        = (settle (performed w s.block)).withWorld s.cmds (s.rsps ++ (performed w s.block).rsps) s.sched s.tick := by
      rw [performed_withWorld, settle_withWorld]
    rw [atomicAnswers, atomicRun_cons, atomicRun_cons, first, ih, ih (settle (performed w s.block))]
    simp [State.withWorld, State.block, atomicAnswers, settle_rsps]

theorem atomicRun_rsps (ws : List Word) (s : State) : (atomicRun ws s).rsps = s.rsps ++ atomicAnswers ws s := by
  rw [atomicRun_withWorld]
  rfl

theorem atomicRun_congr {s t : State} (ws : List Word) (same : s.block = t.block) :
    (atomicRun ws s).block = (atomicRun ws t).block := by
  rw [atomicRun_withWorld ws s, same, atomicRun_withWorld ws t]
  rfl

theorem atomicAnswers_congr {s t : State} (ws : List Word) (same : s.block = t.block) :
    atomicAnswers ws s = atomicAnswers ws t := by
  rw [atomicAnswers, same, ← atomicAnswers]

theorem atomicAnswers_cons (w : Word) (ws : List Word) (s : State) :
    atomicAnswers (w :: ws) s = (performed w s.block).rsps ++ atomicAnswers ws (settle (performed w s)) := by
  rw [atomicAnswers, atomicRun_cons, atomicRun_rsps, settle_rsps,
    atomicAnswers_congr ws (settle_congr (performed_block w s))]

/-! ## Two-agent runs -/

/-- Two lists of responses to the words `ws`, one to each, that differ at RDSTATs only. -/
inductive AgreeButForRdstat : List Word → List Word → List Word → Prop
  | nil : AgreeButForRdstat [] [] []
  | cons {w r r' : Word} {ws rs rs' : List Word} (same : w ≠ 0x40000000 → r = r')
      (rest : AgreeButForRdstat ws rs rs') : AgreeButForRdstat (w :: ws) (r :: rs) (r' :: rs')

theorem AgreeButForRdstat.length_eq {ws rs rs' : List Word} (a : AgreeButForRdstat ws rs rs') :
    rs.length = rs'.length := by
  induction a with
  | nil => rfl
  | cons same rest ih => exact congrArg (· + 1) ih

theorem AgreeButForRdstat.getElem?_eq {ws rs rs' : List Word} (a : AgreeButForRdstat ws rs rs') {j : Nat}
    (other : ws[j]? ≠ some 0x40000000) : rs[j]? = rs'[j]? := by
  induction a generalizing j with
  | nil => rfl
  | cons same rest ih =>
    cases j with
    | zero => exact congrArg some (same fun rdstat => other (congrArg some rdstat))
    | succ j => exact ih other

/-- From `s` to `t` the HOST's words did what the atomic form does with them once the ENGINE has settled, RDSTAT's
responses apart (70_reset_and_hazards.md R172). -/
structure AgreesWithAtomic (s t : State) : Prop where
  block : t.block = (atomicRun s.cmds (settle s)).block
  answers : ∃ rs, t.rsps = s.rsps ++ rs ∧ AgreeButForRdstat s.cmds rs (atomicAnswers s.cmds (settle s))

/-- Where the run has ended there is nothing left to do. -/
theorem agreesWithAtomic_of_ended {s : State} (ended : s.runEnded = true) : AgreesWithAtomic s s := by
  simp only [State.runEnded, Bool.and_eq_true, List.isEmpty_iff, Bool.not_eq_true'] at ended
  obtain ⟨noWord, idle⟩ := ended
  refine ⟨?_, [], (List.append_nil _).symm, ?_⟩
  · rw [noWord, settle_idle idle]
    rfl
  · rw [noWord]
    exact .nil

section Step

variable {s t : State}

/-- A micro-step in front. -/
theorem AgreesWithAtomic.of_engineStep {sched : List Move} {tick : Nat} (inv : s.Inv)
    (later : AgreesWithAtomic ((engineStep s).withWorld s.cmds s.rsps sched tick) t) : AgreesWithAtomic s t := by
  obtain ⟨block, rs, rsps, agree⟩ := later
  have settled : (settle ((engineStep s).withWorld s.cmds s.rsps sched tick)).block = (settle s).block :=
    (settle_congr (block_withWorld ..)).trans (congrArg _ (settle_engineStep inv))
  rw [atomicAnswers_congr _ settled] at agree
  exact ⟨block.trans (atomicRun_congr _ settled), rs, rsps, agree⟩

/-- A performed word in front. -/
theorem AgreesWithAtomic.of_performed {w : Word} {ws : List Word} {sched : List Move} {tick : Nat} (inv : s.Inv)
    (presented : s.cmds = w :: ws) (may : accepted s w = true)
    (later : AgreesWithAtomic ((performed w s).withWorld ws (performed w s).rsps sched tick) t) :
    AgreesWithAtomic s t := by
  obtain ⟨block, rs, rsps, agree⟩ := later
  obtain ⟨r, r', answer, atomic, same⟩ := exists_answers_settle may
  have settled : (settle ((performed w s).withWorld ws (performed w s).rsps sched tick)).block
      = (settle (performed w (settle s))).block := (settle_congr (block_withWorld ..)).trans (settle_performed inv may)
  rw [atomicAnswers_congr _ settled] at agree
  refine ⟨?_, r :: rs, ?_, ?_⟩
  · rw [presented, atomicRun_cons]
    exact block.trans (atomicRun_congr ws settled)
  · calc t.rsps
      _ = (performed w s).rsps ++ rs := rsps
      _ = s.rsps ++ r :: rs := by rw [answer, List.append_assoc, List.singleton_append]
  · rw [presented, atomicAnswers_cons, atomic]
    exact .cons same agree

/-- Every step is one of the two. -/
theorem AgreesWithAtomic.of_step {u : State} (inv : s.Inv) (nr : noReset s.sched) (h : step s = .next u)
    (later : AgreesWithAtomic u t) : AgreesWithAtomic s t := by
  obtain ⟨tick, rfl⟩ | ⟨w, ws, tick, presented, may, rfl⟩ := step_agents h nr
  · exact later.of_engineStep inv
  · exact later.of_performed inv presented may

end Step

/-- From any state that meets the invariant, busy or not, a run that has ended agrees with the atomic form. -/
theorem agreesWithAtomic_of_run {n : Nat} {s t : State} (inv : s.Inv) (nr : noReset s.sched)
    (run : Sys2Proof.core.run n s = .next t) (ended : t.runEnded = true) : AgreesWithAtomic s t := by
  induction n generalizing s with
  | zero =>
    obtain rfl : s = t := Host.Outcome.next.inj run
    exact agreesWithAtomic_of_ended ended
  | succ n ih =>
    obtain ⟨u, h⟩ := step_next s
    rw [run_succ n h] at run
    exact (ih (inv_step inv h) (noReset_step h nr) run).of_step inv nr h

/-- Settles O56: `agreesWithAtomic_of_run` from an idle state, where there is nothing to settle. -/
theorem twoAgentRunsAgreeWithTheAtomicForm : Obligations.TwoAgentRunsAgreeWithTheAtomicForm := by
  intro s t n inv idle nr run ended
  obtain ⟨block, rs, rsps, agree⟩ := agreesWithAtomic_of_run inv nr run ended
  rw [settle_idle idle] at block agree
  rw [rsps, atomicRun_rsps]
  refine ⟨block, ?_, fun j other => ?_⟩
  · rw [List.length_append, List.length_append, agree.length_eq]
  · rw [List.getElem?_append_right (Nat.le_add_right _ _), List.getElem?_append_right (Nat.le_add_right _ _),
      Nat.add_sub_cancel_left]
    exact agree.getElem?_eq other

end Sys2Proof.Machine

/-! PROOFS of the statements on the command word and on what the read commands answer: the refusal of an operand out of
range (30_encoding.md R66), and the fields of a word as numbers and by shift and mask. -/

/-! ## The command word -/

namespace Sys2Proof

/-- A command whose operand is out of range is refused for that (30_encoding.md R66, R70). -/
theorem decode_encode_of_not_wf {i : Instr} (bad : i.wf = false) : decode (encode i) = .error .operandRange := by
  have fields : Laws.EncodeFields.Statement i := by simp [Laws.EncodeFields.Statement, encode]
  obtain ⟨code, rsv, opd⟩ := fields
  simp [decode, code, rsv, opd, commandOf_opcode_operand, bad]

/-- Settles O1: the fields of an encoded command name it, and only the test of its operand is left. -/
theorem decodeOfEncodeGivesTheCommandBack : Obligations.DecodeOfEncodeGivesTheCommandBack :=
  fun _ => ⟨decode_encode_of_wf, decode_encode_of_not_wf⟩

/-- Settles O2: by what a word that decodes has passed, `decode_eq_ok_iff`. -/
theorem encodeOfDecodeGivesTheWordBack : Obligations.EncodeOfDecodeGivesTheWordBack :=
  fun _ _ h => ⟨encode_of_decode_ok h, wf_of_decode_ok h⟩

/-- Settles O6: by evaluating the decoder at each word of the table. -/
theorem sampleWordsDecode : Obligations.SampleWordsDecode := by
  unfold Obligations.SampleWordsDecode
  decide

/-- The word of a command whose operand is out of range is illegal (60_exceptions.md R146). -/
theorem legal_encode_of_not_wf {i : Instr} (bad : i.wf = false) : legal (encode i) = false :=
  legal_of_decode_error (decode_encode_of_not_wf bad)

/-- A word as the number its fields give (30_encoding.md R64). -/
theorem packFields_toNat (op : BitVec 4) (rsv : BitVec 20) (opd : Byte) :
    (packFields op rsv opd).toNat = 2 ^ 28 * op.toNat + 2 ^ 8 * rsv.toNat + opd.toNat := by
  rw [packFields, BitVec.toNat_cast, BitVec.toNat_append, ← Nat.shiftLeft_add_eq_or_of_lt opd.isLt,
    BitVec.toNat_append, ← Nat.shiftLeft_add_eq_or_of_lt rsv.isLt, Nat.shiftLeft_eq, Nat.shiftLeft_eq]
  ring

/-- The word of a command as a number: its opcode on top, its operand below. -/
theorem encode_toNat (i : Instr) : (encode i).toNat = 2 ^ 28 * i.opcode.toNat + i.operand.toNat :=
  packFields_toNat i.opcode 0 i.operand

end Sys2Proof

namespace Sys2Proof.Machine

/-! ## The reads -/

/-- A read of an index out of range raises E_ILL (log 7). -/
theorem readIndexed_of_le {n : Nat} {opd : Byte} (read : Fin n → Word) (s : State) (ge : n ≤ opd.toNat) :
    readIndexed n opd read s = raise .ill s := by
  obtain ⟨lt, -⟩ | ⟨-, e⟩ := readIndexed_cases n opd read s
  · omega
  · exact e

/-- A zero-extended field of a word, by shift and mask. -/
theorem setWidth_extractLsb'_eq_and (x : Word) (i n : Nat) (hn : n ≤ 32) :
    (x.extractLsb' i n).setWidth 32 = (x >>> i) &&& BitVec.ofNat 32 (2 ^ n - 1) := by
  have mask : 2 ^ n ≤ 2 ^ 32 := Nat.pow_le_pow_right (by decide) hn
  apply BitVec.eq_of_toNat_eq
  rw [BitVec.toNat_setWidth_of_le hn, BitVec.toNat_and, BitVec.toNat_ofNat, Nat.mod_eq_of_lt (by omega),
    Nat.and_two_pow_sub_one_eq_mod, BitVec.extractLsb'_toNat, BitVec.toNat_ushiftRight]

theorem digestByte_setWidth (h : Vector Word 8) (i : Fin 32) :
    (digestByte h i).setWidth 32 = (h[i.val / 4] >>> (24 - 8 * (i.val % 4))) &&& 0xFF :=
  setWidth_extractLsb'_eq_and _ _ 8 (by decide)

theorem digestNibble_setWidth (h : Vector Word 8) (i : Fin 64) :
    (digestNibble h i).setWidth 32 = (h[i.val / 8] >>> (28 - 4 * (i.val % 8))) &&& 0xF :=
  setWidth_extractLsb'_eq_and _ _ 4 (by decide)

/-- Settles O21: a read of an index below 8 answers the word, any other raises E_ILL. -/
theorem rdwordAnswersTheHashWord : Obligations.RdwordAnswersTheHashWord := by
  refine fun s k => ⟨encode_toNat (.rdword k), accepted_encode_of_ne s (by simp) (by simp), fun idle lt => ?_,
    fun idle ge => ⟨?_, legal_encode_of_not_wf (decide_eq_false (Nat.not_lt.mpr ge))⟩⟩
  · exact exec_rdword_idle (k := ⟨k.toNat, lt⟩) idle rfl
  · exact (whenIdle_idle _ idle).trans (congrArg _ (readIndexed_of_le _ s ge))

/-- Settles O22: a read of an index below 32 answers `digestByte`, any other raises E_ILL. -/
theorem rdbyteAnswersTheDigestByte : Obligations.RdbyteAnswersTheDigestByte := by
  refine fun s i => ⟨encode_toNat (.rdbyte i), accepted_encode_of_ne s (by simp) (by simp), fun idle lt => ?_,
    fun idle ge => ⟨?_, legal_encode_of_not_wf (decide_eq_false (Nat.not_lt.mpr ge))⟩⟩
  · rw [exec_rdbyte_idle (i := ⟨i.toNat, lt⟩) idle rfl, digestByte_setWidth]
    rfl
  · exact (whenIdle_idle _ idle).trans (congrArg _ (readIndexed_of_le _ s ge))

/-- Settles O23: a read of an index below 64 answers the digit of `digestNibble`, any other raises E_ILL. -/
theorem rdhexAnswersTheDigestCharacter : Obligations.RdhexAnswersTheDigestCharacter := by
  refine fun s i => ⟨encode_toNat (.rdhex i), accepted_encode_of_ne s (by simp) (by simp), fun idle lt => ?_,
    fun idle ge => ⟨?_, legal_encode_of_not_wf (decide_eq_false (Nat.not_lt.mpr ge))⟩⟩
  · refine ⟨_, _, digestNibble_setWidth s.h ⟨i.toNat, lt⟩, ?_,
      exec_rdhex_idle (i := ⟨i.toNat, lt⟩) idle rfl⟩
    rw [BitVec.toNat_setWidth_of_le (by decide), BitVec.toNat_setWidth_of_le (by decide), hexchar_toNat]
  · exact (whenIdle_idle _ idle).trans (congrArg _ (readIndexed_of_le _ s ge))

/-! ## Commands and the world around the block -/

/-- A command that only answers does so again after any response (20_memory.md R53). -/
theorem exec_respond_of_answers {i : Instr} {s : State} {r : Word} (h : exec i s = .next (respond r s)) (x : Word) :
    exec i (respond x s) = .next (respond r (respond x s)) := by
  obtain ⟨b, alone, inWorld⟩ := exec_withWorld i s
  obtain ⟨b', alone', inWorld'⟩ := exec_withWorld i (respond x s)
  obtain rfl : b = b' := Host.Outcome.next.inj (alone.symm.trans alone')
  have same : b.withWorld s.cmds (s.rsps ++ b.rsps) s.sched s.tick = respond r s :=
    Host.Outcome.next.inj (inWorld.symm.trans h)
  have answer : b.rsps = [r] := List.append_cancel_left (congrArg State.rsps same)
  rw [inWorld', answer]
  exact congrArg (fun t => Host.Outcome.next (t.withWorld s.cmds (s.rsps ++ [x] ++ [r]) s.sched s.tick)) same

/-- Settles O26: an accepted quiet command only answers. -/
theorem readsHaveNoEffectAndRepeat : Obligations.ReadsHaveNoEffectAndRepeat := by
  intro i s quiet wf may
  obtain ⟨r, answers⟩ := exec_quiet quiet wf may
  exact ⟨r, answers, exec_respond_of_answers answers r⟩

theorem accepted_nop (s : State) : accepted s (encode .nop) = true := (accepted_iff s _).mpr (.inr (.inl rfl))

theorem accepted_rdstat (s : State) : accepted s (encode .rdstat) = true := (accepted_iff s _).mpr (.inr (.inr rfl))

/-- The model's choice for a held command (log 8). -/
theorem exec_held {i : Instr} {s : State} (busy : s.busy = true) (notNop : i ≠ .nop) (notRdstat : i ≠ .rdstat) :
    exec i s = .next s := by
  cases i
  case nop => exact absurd rfl notNop
  case rdstat => exact absurd rfl notRdstat
  all_goals exact whenIdle_busy _ busy

/-- Settles O28: a command is held unless it is NOP or RDSTAT. -/
theorem heldCommandChangesNothing : Obligations.HeldCommandChangesNothing := by
  intro i s busy
  have held : accepted s (encode i) = false ↔ i ≠ .nop ∧ i ≠ .rdstat := by
    constructor
    · intro off
      refine ⟨?_, ?_⟩ <;> rintro rfl
      · exact absurd (accepted_nop s) (off ▸ Bool.false_ne_true)
      · exact absurd (accepted_rdstat s) (off ▸ Bool.false_ne_true)
    · rintro ⟨notNop, notRdstat⟩
      rw [accepted_encode_of_ne s notNop notRdstat, busy]
      rfl
  refine ⟨held, fun off => ?_⟩
  obtain ⟨notNop, notRdstat⟩ := held.mp off
  exact exec_held busy notNop notRdstat

end Sys2Proof.Machine

/-! PROOFS of the statements on the step: which agent moves and what it answers (00_scope.md R13,
70_reset_and_hazards.md R160, R166), the invariant, and what may write the phase and `H`. -/

namespace Sys2Proof.Machine

/-! ## The HOST, the ENGINE and RESET -/

section HostMove

variable {s : State} {w : Word} {ws : List Word} {ms : List Move}

/-- The HOST's step with a chosen move taken off the list. -/
theorem hostStep_sched (presented : s.cmds = w :: ws) :
    hostStep { s with sched := ms } = perform w { s with cmds := ws, sched := ms } := by
  simp only [hostStep, presented]

/-- The HOST, chosen and presenting an accepted word, performs it. -/
theorem step_host_accepted (chosen : s.sched = .host :: ms) (presented : s.cmds = w :: ws)
    (may : accepted s w = true) : step s = perform w { s with cmds := ws, sched := ms } := by
  have on : hostEnabled s = true := (hostEnabled_cons presented).trans may
  calc step s
    _ = turn true { s with sched := ms } := step_host chosen
    _ = hostStep { s with sched := ms } := turn_hostStep on (.inr rfl)
    _ = perform w { s with cmds := ws, sched := ms } := hostStep_sched presented

/-- The HOST, chosen and presenting a word that is not accepted, leaves the step to the ENGINE. -/
theorem step_host_held (chosen : s.sched = .host :: ms) (presented : s.cmds = w :: ws)
    (held : accepted s w = false) : step s = .next (engineStep { s with sched := ms }) := by
  have off : hostEnabled s = false := (hostEnabled_cons presented).trans held
  exact (step_host chosen).trans (turn_engineStep (.inl off))

/-- An accepted word gives one response, which is 0 for an illegal word (30_encoding.md R72, 60_exceptions.md R146). -/
theorem exists_response_of_accepted (may : accepted s w = true) :
    ∃ r, (performed w s).rsps = s.rsps ++ [r] ∧ (legal w = false → r = 0) := by
  cases isLegal : legal w with
  | false =>
    obtain ⟨_, refused⟩ := decode_error_of_illegal isLegal
    exact ⟨0, by rw [performed_error refused, raise_rsps], fun _ => rfl⟩
  | true =>
    obtain ⟨r, -, answer, -⟩ := exists_answers_settle may
    exact ⟨r, answer, nofun⟩

end HostMove

/-- Settles O7: the HOST moves where it is chosen, and where the ENGINE has no step. -/
theorem stepPerformsThePresentedCommand : Obligations.StepPerformsThePresentedCommand := by
  intro s w ws i presented may isCommand
  have on : hostEnabled s = true := (hostEnabled_cons presented).trans may
  refine ⟨fun ms chosen => ?_, fun idle free => ?_, fun idle ms chosen => ?_⟩
  · rw [step_host_accepted chosen presented may, perform_ok isCommand]
  · rw [step_free_one free (.inr (engineEnabled_idle idle)), turn_hostStep on (.inr rfl), hostStep_cons presented,
      perform_ok isCommand]
  · calc step s
      _ = turn false { s with sched := ms } := step_engine chosen
      _ = hostStep { s with sched := ms } := turn_hostStep on (.inl (engineEnabled_idle idle))
      _ = perform w { s with cmds := ws, sched := ms } := hostStep_sched presented
      _ = exec i { s with cmds := ws, sched := ms } := perform_ok isCommand

/-- Settles O8: with the ENGINE enabled, the turn is the HOST's only where the HOST is enabled and first. -/
theorem engineStepsByItself : Obligations.EngineStepsByItself := by
  intro s on
  refine ⟨fun ms chosen => ?_, fun off => ⟨fun ms chosen => ?_, fun free => ?_⟩, fun both free => ?_⟩
  · exact (step_engine chosen).trans (turn_engineStep (.inr ⟨on, rfl⟩))
  · exact (step_host chosen).trans (turn_engineStep (.inl off))
  · exact (step_free_one free (.inl off)).trans (turn_engineStep (.inl off))
  · rw [step_free_both free both on]
    cases first : Config.hostFirst s.tick with
    | true => exact .inl (turn_hostStep both (.inr rfl))
    | false => exact .inr (turn_engineStep (.inr ⟨on, rfl⟩))

/-- Settles O9: an accepted word is performed, and a held one leaves the step to the ENGINE. -/
theorem acceptedWordGetsOneResponseHeldWordNone : Obligations.AcceptedWordGetsOneResponseHeldWordNone := by
  intro s w ws ms presented chosen
  rw [← accepted_iff]
  constructor
  · intro may
    obtain ⟨r, answer, zero⟩ := exists_response_of_accepted (s := { s with cmds := ws, sched := ms }) may
    refine ⟨_, r, (step_host_accepted chosen presented may).trans (perform_eq w _), ?_, answer, zero⟩
    exact performed_cmds w _
  · intro held
    obtain ⟨cmds, rsps, -⟩ := engineStep_keeps { s with sched := ms }
    exact ⟨_, step_host_held chosen presented (by simpa using held), cmds.trans presented, rsps⟩

/-- Settles O10: every command, and every agent's turn, answers a next state. -/
theorem everyStepAnswersANextState : Obligations.EveryStepAnswersANextState := by
  refine ⟨fun i s => ?_, step_next⟩
  obtain ⟨t, e, -⟩ := exec_cases i s
  exact ⟨t, e⟩

/-- Settles O12: RESET starts a message, as INIT does, and leaves out the waiting word where it is not to come again. -/
theorem resetSetsEveryElement : Obligations.ResetSetsEveryElement :=
  fun s _ _ chosen => ⟨_, step_reset chosen, rfl, status_startMessage s⟩

/-! ## The invariant -/

/-- Settles O46: by the cases of a step, each of which keeps the invariant. -/
theorem everyStepKeepsTheInvariant : Obligations.EveryStepKeepsTheInvariant :=
  fun _ _ => inv_step

/-- Settles O47: RESET starts a message. -/
theorem invariantHoldsAfterReset : Obligations.InvariantHoldsAfterReset := inv_resetWith

/-! ## What a step writes -/


/-- A command that was decoded from the presented word is the one whose word was performed. -/
theorem ExecCase.wordPerformed {s t : State} {w : Word} {ws : List Word} {i : Instr} {n : Nat}
    (c : ExecCase i { s with cmds := ws, sched := s.sched.tail, tick := n } t) (presented : s.cmds = w :: ws)
    (may : accepted s w = true) (isCommand : decode w = .ok i) : wordPerformed (encode i) s t := by
  rw [encode_of_decode_ok isCommand]
  exact ⟨by rw [c.cmds, presented], may⟩

/-- All a command can do to the phase (10_state.md R25). -/
theorem ExecCase.phase {i : Instr} {s t : State} (c : ExecCase i s t) :
    t.phase = s.phase ∨ (t.phase = .absorb ∧ i = .init)
      ∨ (t.phase = .error ∧ s.phase = .absorb ∧ s.len = Config.maxLen ∧ t.eOvf = true ∧ ∃ b, i = .absorb b) := by
  cases c with
  | held => exact .inl rfl
  | answered => exact .inl rfl
  | raisedIll => exact .inl (by simp)
  | raisedSeq => exact .inl (by simp)
  | raisedOvf b idle which phase full => exact .inr (.inr ⟨by simp, phase, full, by simp, b, which⟩)
  | initialised idle which => exact .inr (.inl ⟨rfl, which⟩)
  | absorbed b => exact .inl (absorbByte_phase b s)
  | padded => exact .inl rfl

/-- The ENGINE changes the phase only at the last ACCUM of a FINAL (41_compression.md R113). -/
theorem engineStep_phase (s : State) :
    (engineStep s).phase = s.phase
      ∨ ((engineStep s).phase = .done ∧ s.busy = true ∧ s.estep = .accum ∧ s.fin = .last) := by
  have c := engineCase s
  generalize engineStep s = t at c ⊢
  cases c with
  | none => exact .inl rfl
  | load => exact .inl rfl
  | round => exact .inl rfl
  | accum busy at' =>
    cases fin : s.fin with
    | none => exact .inl (by rw [accumStep_none fin])
    | pad2 => exact .inl (by rw [accumStep_pad2 fin])
    | last => exact .inr ⟨by rw [accumStep_last fin], busy, at', rfl⟩

/-- Settles O33: by the cases of a step. -/
theorem phaseChangesOnlyAsStated : Obligations.PhaseChangesOnlyAsStated := by
  intro s t inv h changed
  cases stepCase_of_next h with
  | reset again ms chosen => exact .inl ⟨rfl, .inl ⟨again, ms, chosen⟩⟩
  | illegal w ws r n => exact absurd (by simp) changed
  | command w ws i n t presented may isCommand does =>
    have c := execCase_of_next does
    have performed := c.wordPerformed presented may isCommand
    obtain same | ⟨absorb, rfl⟩ | ⟨error, phase, full, flag, b, rfl⟩ := c.phase
    · exact absurd same changed
    · exact .inl ⟨absorb, .inr performed⟩
    · exact .inr (.inr ⟨error, phase, full, flag, b, performed⟩)
  | engine n =>
    obtain same | ⟨done, busy, at', fin⟩ := engineStep_phase { s with sched := s.sched.tail, tick := n }
    · exact absurd same changed
    · exact .inr (.inl ⟨done, (inv.running busy).2, busy, at', fin⟩)

/-- Of the commands only INIT writes `H` (10_state.md R21). -/
theorem ExecCase.h {i : Instr} {s t : State} (c : ExecCase i s t) : t.h = s.h ∨ (t.h = iv ∧ i = .init) := by
  cases c with
  | held => exact .inl rfl
  | answered => exact .inl rfl
  | raisedIll => exact .inl (raise_h _ s)
  | raisedSeq => exact .inl (raise_h _ s)
  | raisedOvf => exact .inl (raise_h _ s)
  | initialised idle which => exact .inr ⟨rfl, which⟩
  | absorbed b => exact .inl (absorbByte_h b s)
  | padded => exact .inl rfl

/-- Of the micro-steps only ACCUM writes `H` (41_compression.md R116). -/
theorem engineStep_h (s : State) :
    (engineStep s).h = s.h ∨ ((engineStep s).h = accumulate s.h s.v ∧ s.busy = true ∧ s.estep = .accum) := by
  have c := engineCase s
  generalize engineStep s = t at c ⊢
  cases c with
  | none => exact .inl rfl
  | load => exact .inl rfl
  | round => exact .inl rfl
  | accum busy at' => exact .inr ⟨accumStep_h s, busy, at'⟩

/-- Settles O34: by the cases of a step. -/
theorem hashStateWrittenOnlyByInitResetAccum : Obligations.HashStateWrittenOnlyByInitResetAccum := by
  intro s t h
  cases stepCase_of_next h with
  | reset again ms chosen => exact .inr (.inl ⟨rfl, .inl ⟨again, ms, chosen⟩⟩)
  | illegal w ws r n => exact .inl (raise_h _ _)
  | command w ws i n t presented may isCommand does =>
    have c := execCase_of_next does
    have performed := c.wordPerformed presented may isCommand
    obtain same | ⟨init, rfl⟩ := c.h
    · exact .inl same
    · exact .inr (.inl ⟨init, .inr performed⟩)
  | engine n =>
    obtain same | ⟨sum, busy, at'⟩ := engineStep_h { s with sched := s.sched.tail, tick := n }
    · exact .inl same
    · exact .inr (.inr ⟨busy, at', fun i => by rw [sum]; exact accumulate_getElem s.h s.v i.isLt⟩)

/-! ## ABSORB and FINAL -/

/-- Settles O27: by the cases of ABSORB and FINAL. -/
theorem preprocessorWritesOnlyItsOwnState : Obligations.PreprocessorWritesOnlyItsOwnState := by
  constructor
  · intro i s t which h
    have loud : i.quiet = false := by obtain rfl | ⟨b, rfl⟩ := which <;> rfl
    cases execCase_of_next h with
    | held busy => simp [busy]
    | answered r quiet => simp [loud] at quiet
    | raisedIll _ quiet => simp [loud] at quiet
    | raisedSeq idle _ phase => simp [idle, phase]
    | raisedOvf b idle which phase full => subst which; simp [idle, phase, full]
    | initialised _ which' => subst which'; simp at which
    | absorbed b idle which phase room => subst which; simp [idle, phase, room]
    | padded idle which phase => subst which; simp [idle, phase]
  · intro b s t h j other
    cases execCase_of_next h with
    | held => rfl
    | answered => rfl
    | raisedIll _ quiet => cases quiet
    | raisedSeq => simp
    | raisedOvf => simp
    | initialised _ which => cases which
    | absorbed b' => simp [Ne.symm other]
    | padded _ which => cases which

end Sys2Proof.Machine

/-! PROOFS of the statements on the ports (30_encoding.md R73): the outputs as fields of STATUS, a clock edge as steps
of the machine, and the queue of the responses. -/

namespace Sys2Proof.Machine

/-! ## The level outputs -/

/-- The HOST has a step exactly where the word it presents is accepted (70_reset_and_hazards.md R166). -/
theorem hostEnabled_iff (s : State) : hostEnabled s = true ↔ ∃ w, cmdData s = some w ∧ cmdReady s w = true := by
  cases c : s.cmds with
  | nil => simp [hostEnabled, cmdData, c]
  | cons w ws => simp [hostEnabled, cmdData, cmdReady, c]

theorem phaseCode_eq_one_iff (p : Phase) : phaseCode p = 1#2 ↔ p = .done := by
  cases p <;> simp [phaseCode]

theorem phaseCode_eq_two_iff (p : Phase) : phaseCode p = 2#2 ↔ p = .error := by
  cases p <;> simp [phaseCode]

/-- Settles O58: by the fields of STATUS. -/
theorem outputsFollowStatus : Obligations.OutputsFollowStatus := by
  intro s
  rw [status_phase, phaseCode_eq_one_iff, phaseCode_eq_two_iff, status_bit s 0 (by decide), status_bit s 5 (by decide),
    status_bit s 6 (by decide)]
  refine ⟨by simp [busyO], by simp [doneO], ?_, hostEnabled_iff s⟩
  simp [errO, or_assoc]

/-! ## A clock edge -/

section Edge

variable (s : State) (rsps : List Word) (ms : List Move) (tick : Nat)

/-- The HOST's step in any world: the word's effect on the block, and its response after the earlier ones. -/
theorem step_host_withWorld {w : Word} (ws : List Word) (may : accepted s w = true) :
    step (s.withWorld (w :: ws) rsps (.host :: ms) tick)
      = .next ((performed w s).withWorld ws (rsps ++ (performed w s.block).rsps) ms tick) := by
  have host := step_host_accepted (s := s.withWorld (w :: ws) rsps (.host :: ms) tick) rfl rfl may
  rw [host, perform_eq, performed_withWorld, performed_withWorld w s]
  rfl

/-- The ENGINE's step in any world without a presented word. -/
theorem step_engine_withWorld :
    step (s.withWorld [] rsps (.engine :: ms) tick) = .next ((engineStep s).withWorld [] rsps ms tick) := by
  rw [step_engine rfl, ← engineStep_withWorld]
  exact turn_engineStep (.inl rfl)

end Edge

theorem accepts_iff (c : Clocked) (i : PortInputs) :
    c.accepts i = true ↔ i.rst = false ∧ i.cmdValid = true ∧ accepted c.block i.cmdData = true := by
  simp [Clocked.accepts, cmdReady, and_assoc]

theorem stepDue_iff (perStep : Nat) (c : Clocked) :
    c.stepDue perStep = true ↔ engineEnabled c.block = true ∧ perStep ≤ c.waited + 1 := by
  simp [Clocked.stepDue]

section EdgeMoves

variable (perStep : Nat) (c : Clocked) (i : PortInputs)

/-- The HOST's move of an edge without RESET. -/
def Clocked.hostMoves : List Move := if c.accepts i then [.host] else []

/-- The ENGINE's move of an edge without RESET. -/
def Clocked.engineMoves : List Move := if c.stepDue perStep then [.engine] else []

/-- The word an edge accepts. -/
def Clocked.acceptedWords : List Word := if c.accepts i then [i.cmdData] else []

/-- The block after the command of an edge, if one is accepted. -/
def Clocked.afterHost : State := if c.accepts i then performed i.cmdData c.block else c.block

/-- The answer of an edge is the one response of the accepted word (30_encoding.md R72). -/
theorem answer_of_accepts {c : Clocked} {i : PortInputs} (takes : c.accepts i = true) :
    (c.answer i).toList = (performed i.cmdData c.block.block).rsps := by
  obtain ⟨-, -, may⟩ := (accepts_iff c i).mp takes
  obtain ⟨r, alone, -⟩ := exists_response_of_accepted (s := c.block.block) may
  have one : (performed i.cmdData c.block.block).rsps = [r] := alone
  rw [Clocked.answer, if_pos takes, performed_rsps, one]
  simp

/-- The HOST's part of an edge as steps of the machine. -/
theorem run_hostMoves (n : Nat) (ms : List Move) (tick : Nat) :
    Sys2Proof.core.run ((c.hostMoves i).length + n)
        (c.block.withWorld (c.acceptedWords i) c.block.rsps (c.hostMoves i ++ ms) tick)
      = Sys2Proof.core.run n
          ((c.afterHost i).withWorld [] (c.block.rsps ++ (c.answer i).toList) ms tick) := by
  cases takes : c.accepts i with
  | true =>
    obtain ⟨-, -, may⟩ := (accepts_iff c i).mp takes
    have host := step_host_withWorld c.block c.block.rsps ms tick [] may
    rw [answer_of_accepts takes]
    simp only [Clocked.hostMoves, Clocked.acceptedWords, Clocked.afterHost, takes, if_true]
    rw [Nat.add_comm]
    exact run_succ n host
  | false => simp [Clocked.hostMoves, Clocked.acceptedWords, Clocked.afterHost, Clocked.answer, takes]

/-- The ENGINE's part of an edge as steps of the machine. -/
theorem run_engineMoves (s : State) (rsps : List Word) (tick : Nat) :
    Sys2Proof.core.run (c.engineMoves perStep).length (s.withWorld [] rsps (c.engineMoves perStep) tick)
      = .next ((if c.stepDue perStep then engineStep s else s).withWorld [] rsps [] tick) := by
  cases due : c.stepDue perStep with
  | true =>
    simp only [Clocked.engineMoves, due, if_true]
    exact run_succ 0 (step_engine_withWorld s rsps [] tick)
  | false =>
    simp only [Clocked.engineMoves, due]
    rfl

/-- The block after an edge without RESET: the command's effect and then the micro-step that is due. -/
theorem edge_block {i : PortInputs} (noRst : i.rst = false) :
    (c.edge perStep i).block = if c.stepDue perStep then engineStep (c.afterHost i) else c.afterHost i := by
  simp [Clocked.edge, Clocked.afterHost, noRst]

/-- RESET wins over a presented word (log 13). -/
theorem accepts_of_rst {c : Clocked} {i : PortInputs} (rst : i.rst = true) : c.accepts i = false := by
  simp [Clocked.accepts, rst]

end EdgeMoves

/-- Settles O59: RESET alone, or the HOST's part of the edge and then the ENGINE's. -/
theorem clockEdgeIsAtMostTwoSteps : Obligations.ClockEdgeIsAtMostTwoSteps := by
  intro perStep c i moves words
  refine ⟨accepts_iff c i, stepDue_iff perStep c, ?_⟩
  cases rst : i.rst with
  | true =>
    have noWord : c.accepts i = false := accepts_of_rst rst
    have isMoves : moves = [.reset false] := if_pos rst
    have isWords : words = [] := if_neg (by simp [noWord])
    have edge : (c.edge perStep i).block = resetCore true c.block := if_pos rst
    have answer : c.answer i = none := if_neg (by simp [noWord])
    rw [isMoves, isWords, edge, answer]
    exact ⟨by decide, _, run_succ 0 (step_reset rfl), rfl, rfl, (List.append_nil _).symm, rfl⟩
  | false =>
    have isMoves : moves = c.hostMoves i ++ c.engineMoves perStep := if_neg (by simp [rst])
    rw [isMoves, List.length_append, edge_block perStep c rst]
    refine ⟨?_, _, (run_hostMoves c i _ _ c.block.tick).trans (run_engineMoves perStep c _ _ _), rfl, rfl, rfl, ?_⟩
    · simp only [Clocked.hostMoves, Clocked.engineMoves]
      split <;> split <;> decide
    · exact (block_withWorld ..).symm

/-! ## The responses under way -/

/-- The response port shows what is under way, then the answers, in order: one entry a cycle. -/
theorem run_rsp (perStep : Nat) (is : List PortInputs) (c : Clocked) :
    (Clocked.run perStep is c).map PortOutputs.rsp = (c.pipe ++ Clocked.answers perStep is c).take is.length := by
  induction is generalizing c with
  | nil => rfl
  | cons i is ih =>
    have next : (c.edge perStep i).pipe = (c.pipe ++ [c.answer i]).tail := rfl
    have now : (c.outputs i).rsp = ((c.pipe ++ [c.answer i]).head?).join := rfl
    rw [Clocked.run, Clocked.answers, List.map_cons, ih, next, now]
    cases c.pipe with
    | nil => simp
    | cons r rs => simp

/-- Settles O60: `latency` cycles of no response are under way before the first answer. -/
theorem responseComesAfterTheLatency : Obligations.ResponseComesAfterTheLatency := by
  intro perStep latency is c empty
  rw [run_rsp, empty]
  refine ⟨fun n lt => ?_, fun n early lt => ?_⟩
  · rw [List.getElem?_take_of_lt lt, List.getElem?_append_right (by simp)]
    simp
  · rw [List.getElem?_take_of_lt lt, List.getElem?_append_left (by simpa using early),
      List.getElem?_replicate_of_lt early]

end Sys2Proof.Machine
